-- ==== Sys2Proof/Word.lean ====
section
/-! DEFINITION. The widths of the block's values (rules R9, R10, R53): nothing else. -/

namespace Sys2Proof

/-- One byte of a serialised value (R42). -/
abbrev Byte := BitVec 8

/-- The contents of a 256-bit operand or result port (R9 `W_PORT`, R20, R26). -/
abbrev Word := BitVec 256

/-- One command frame `CMD[512:0] = {in_op, in_a, in_b}` (R53). -/
abbrev Frame := BitVec 513

end Sys2Proof
end

