-- ==== Sys2Proof/Config.lean ====
section
/-! DEFINITION. What is fixed for one block: the modulus, the widths (R9) and the latency the spec leaves OPEN. -/

namespace Sys2Proof.Config

/-- The field prime `P`, the literal of R3. It is hardwired (R5). -/
def fieldPrime : Nat := 0x0800000000000011000000000000000000000000000000000000000000000001

/-- `W_VAL` of R9: the bit length of `P`. -/
def wVal : Nat := 252

/-- `W_PORT` of R9: the width of every operand and result port. -/
def wPort : Nat := 256

/-- `W_OP` of R9: the width of the operation select. -/
def wOp : Nat := 1

/-- FREE VALUE (log entry 1): one less than the latency of the block right after reset.
R9 leaves `LAT` OPEN, so nothing constrains it. -/
opaque latPred : Nat

/-- The latency `LAT` of `State.reset`: some integer `>= 1` (R9). -/
def lat : Nat := latPred + 1

/-- The width of `CNT` for a latency: `ceil(log2(LAT))`, at least 1 (R32). -/
def cntWidth (lat : Nat) : Nat := max 1 (Nat.clog 2 lat)

end Sys2Proof.Config
end

