-- ==== Sys2Proof/Syntax.lean ====
section
/-! DEFINITION. The commands of the block, one constructor per row of the opcode table (R54), and the
pseudo-instructions of the assembler (R62), which have no row of their own. -/

namespace Sys2Proof

/-- A command: an operation and two 256-bit operands (R53, R54, R55). -/
inductive Instr where
  /-- `ADD a, b`, field addition (R79). -/
  | add (a b : Word)
  /-- `SUB a, b`, field subtraction `a` minus `b` (R82). -/
  | sub (a b : Word)
deriving DecidableEq, Repr

/-- The pseudo-instructions of R62. Each expands to one command (`Pseudo.expand` in Decode.lean). -/
inductive Pseudo where
  /-- `NEG b`, the additive inverse. -/
  | neg (b : Word)
  /-- `DBL a`, doubling. -/
  | dbl (a : Word)
  /-- `TST a`, the zero test. -/
  | tst (a : Word)
  /-- `EQ a, b`, the equality test. -/
  | eq (a b : Word)
deriving DecidableEq, Repr

namespace Instr

/-- The first operand `a` of a command. -/
def opA : Instr → Word
  | .add a _ => a
  | .sub a _ => a

/-- The second operand `b` of a command. -/
def opB : Instr → Word
  | .add _ b => b
  | .sub _ b => b

end Instr

end Sys2Proof
end

