-- ==== Sys2Proof/WellFormed.lean ====
section
/-! DEFINITION. Which commands are legal (R57). An ill-formed command is no encoding error: the block accepts it and
answers MalformedInput (R58), so the decoder, the encoder and the machine take every command (log entry 11). -/

namespace Sys2Proof

/-- A field element is an integer `v` with `0 <= v < P` (R6). -/
def isFieldElement (v : Word) : Bool := decide (v.toNat < Config.fieldPrime)

/-- A frame is legal exactly when `a < P` and `b < P` (R57); both values of `op` are legal. -/
def Instr.wellFormed (i : Instr) : Bool := isFieldElement i.opA && isFieldElement i.opB

end Sys2Proof
end

