-- ==== Sys2Proof/Decode.lean ====
section
/-! DEFINITION. The command frame (R53 to R66): its fields, the decoder, the encoder, the hexadecimal text of a frame
(R65), the expansion of the pseudo-instructions (R62) and the big-endian serialisation of a 256-bit value (R42). -/

namespace Sys2Proof

/-! ### Fields of a frame -/

/-- Bit 512 of a frame, the field `op` (R53). -/
def frameOp (w : Frame) : BitVec 1 := w.extractLsb' 512 1

/-- Bits 511:256 of a frame, the operand field `A` (R53, R55). -/
def frameA (w : Frame) : Word := w.extractLsb' 256 256

/-- Bits 255:0 of a frame, the operand field `B` (R53, R55). -/
def frameB (w : Frame) : Word := w.extractLsb' 0 256

/-- The frame `{op, a, b}` (R53; `{x, y}` has `x` in the upper bits, R11). -/
def joinFrame (op : BitVec 1) (a b : Word) : Frame := BitVec.cast (show 1 + 256 + 256 = 513 from rfl) (op ++ a ++ b)

/-! ### Decoding and encoding -/

/-- The decoder of frames. It is total: `op = 0` is ADD and `op = 1` is SUB, whatever the operands are (R54, R66). -/
def decodeFrame (w : Frame) : Instr :=
  if frameOp w = 0#1 then .add (frameA w) (frameB w) else .sub (frameA w) (frameB w)

/-- Why something offered as a frame is none. -/
inductive DecodeError where
  /-- The number has a bit above bit 512: a frame has 513 bits (R53, R60). -/
  | bitAboveFrame
  /-- The text does not begin with `0x` (R65). -/
  | noHexMark
  /-- The text has not exactly 129 digits (R65). -/
  | wrongLength
  /-- A character of the text is no hexadecimal digit (R65). -/
  | notHexDigit
  /-- The first digit is neither `0` nor `1` (R65). -/
  | badOpDigit
deriving DecidableEq, Repr

/-- The frame in the low 513 bits of a number, bit 0 its least significant (R10, R53). -/
def frameOfNat (w : Nat) : Frame :=
  joinFrame (BitVec.ofNat 1 (w >>> 512)) (BitVec.ofNat 256 (w >>> 256)) (BitVec.ofNat 256 w)

/-- A number read as a frame: refused by name when it does not fit in 513 bits (R60). -/
def decodeNat (w : Nat) : Except DecodeError Instr :=
  if w >>> 513 = 0 then .ok (decodeFrame (frameOfNat w)) else .error .bitAboveFrame

/-- The instruction the decoder reads from `nbits` bits numbered as the opcode table numbers them. A frame is one word
of 513 bits, bit 0 its least significant; the bits that fill it up to whole bytes are no part of it and must be 0 (log entry 10). -/
def decodeTableWord (nbits w : Nat) : Option Instr :=
  if w >>> nbits = 0 then
    match decodeNat w with
    | .ok i => some i
    | .error _ => none
  else none

/-- The encoder: the frame of `ADD a, b` is `{0, a, b}` and that of `SUB a, b` is `{1, a, b}` (R54, R61). -/
def encode : Instr → Frame
  | .add a b => joinFrame 0#1 a b
  | .sub a b => joinFrame 1#1 a b

/-- The mask of both rows of the opcode table, `1 << 512` (R54). -/
def opcodeMask : Frame := BitVec.twoPow 513 512

/-- The match value of a command's row of the opcode table (R54). -/
def opcodeMatch : Instr → Frame
  | .add _ _ => 0#513
  | .sub _ _ => BitVec.twoPow 513 512

/-! ### Hexadecimal text -/

/-- The value of one hexadecimal digit, in either letter case. -/
def hexDigit (c : Char) : Option Nat :=
  let n := c.toNat
  if 48 ≤ n ∧ n ≤ 57 then some (n - 48)
  else if 97 ≤ n ∧ n ≤ 102 then some (n - 87)
  else if 65 ≤ n ∧ n ≤ 70 then some (n - 55)
  else none

/-- The value of one decimal digit. -/
def decDigit (c : Char) : Option Nat :=
  let n := c.toNat
  if 48 ≤ n ∧ n ≤ 57 then some (n - 48) else none

/-- The number a list of digits spells, high digit first (R14), after `acc`. -/
def digitsValue (base : Nat) (digit : Char → Option Nat) : Nat → List Char → Option Nat
  | acc, [] => some acc
  | acc, c :: cs =>
    match digit c with
    | some d => digitsValue base digit (acc * base + d) cs
    | none => none

/-- The character of a hexadecimal digit below 16, in lower case as the spec writes its literals. -/
def hexChar (d : Nat) : Char := if d < 10 then Char.ofNat (48 + d) else Char.ofNat (87 + d)

/-- The `n` low hexadecimal digits of a number, high digit first (R14). -/
def hexDigits (n v : Nat) : List Char := (List.range n).map fun k => hexChar (v / 16 ^ (n - 1 - k) % 16)

/-- The text of a frame: `0x`, one digit `op`, 64 digits `A`, 64 digits `B` (R65). -/
def encodeHex (i : Instr) : List Char :=
  '0' :: 'x' :: (hexDigits 1 (frameOp (encode i)).toNat ++ hexDigits 64 i.opA.toNat ++ hexDigits 64 i.opB.toNat)

/-- The digits of a frame's text: 129 of them, the first `0` or `1` (R65). -/
def decodeHexDigits (ds : List Char) : Except DecodeError Instr :=
  if ds.length ≠ 129 then .error .wrongLength
  else match digitsValue 16 hexDigit 0 ds with
    | none => .error .notHexDigit
    | some v => if v >>> 513 = 0 then .ok (decodeFrame (frameOfNat v)) else .error .badOpDigit

/-- A frame read from its text (R65). -/
def decodeHex : List Char → Except DecodeError Instr
  | '0' :: 'x' :: ds => decodeHexDigits ds
  | _ => .error .noHexMark

/-! ### Pseudo-instructions -/

/-- The one command a pseudo-instruction expands to (R62). -/
def Pseudo.expand : Pseudo → Instr
  | .neg b => .sub 0#256 b
  | .dbl a => .add a a
  | .tst a => .add a 0#256
  | .eq a b => .sub a b

/-! ### Serialisation -/

/-- `be32(v)`: the 32 bytes of a value, byte 0 the most significant (R14, R42). -/
def be32 (v : Word) : List Byte := (List.range 32).map fun k => v.extractLsb' (248 - 8 * k) 8

/-- The number a list of bytes spells, the first byte the most significant (R42). -/
def bytesValue (bs : List Byte) : Nat := bs.foldl (fun n x => n * 256 + x.toNat) 0

/-- `from_be32(bytes)`, the inverse of `be32` (R42): defined on exactly 32 bytes. -/
def fromBe32 (bs : List Byte) : Option Word :=
  if bs.length = 32 then some (BitVec.ofNat 256 (bytesValue bs)) else none

end Sys2Proof
end

