-- ==== Sys2Proof/Machine/State.lean ====
section
/-! DEFINITION. The state of one block (R39), the host's actions on it (R33, R61) as plain data, and the two ways
in which a step can fail to give a next state. -/

namespace Sys2Proof.Machine

/-- The input ports as sampled at one rising edge of `clk` (R16, R17, R19, R20, R21). Every bit is definite (R117, log entry 8). -/
structure Ports where
  /-- `rst`, active high. -/
  rst : Bool
  /-- `in_valid`. -/
  inValid : Bool
  /-- `in_op`. -/
  inOp : BitVec 1
  /-- `in_a`. -/
  inA : Word
  /-- `in_b`. -/
  inB : Word
deriving DecidableEq, Repr

/-- One interaction of the host with the block (R33, R61; log entries 2 and 14). -/
inductive HostAction where
  /-- Drive the pins so at the next rising edge. -/
  | edge (p : Ports)
  /-- Present a command and hold it until it is accepted (R33 "issue", R114). -/
  | issue (i : Instr)
  /-- WAIT: wait for `out_valid = 1` (R61). -/
  | wait
  /-- READ: read `out_err`, `out_zero` and, when `out_err = 00`, `out_res` (R61). -/
  | read
  /-- Read the packed STATUS word (R36). -/
  | readStatus
  /-- Read `out_res` (R26). -/
  | readResult
  /-- Read `in_ready` while driving this `rst` (R18). -/
  | readReady (rst : Bool)
deriving DecidableEq, Repr

/-- A response as R63 writes it. -/
inductive Reply where
  /-- `OK(res, zero)`. -/
  | ok (res : Word) (zero : Bool)
  /-- `MALFORMED(err)`. -/
  | malformed (err : BitVec 2)
deriving DecidableEq, Repr

/-- What one read of the host gave it. -/
inductive Observation where
  /-- By READ. -/
  | reply (r : Reply)
  /-- By a read of the STATUS word. -/
  | status (w : BitVec 5)
  /-- By a read of `out_res`. -/
  | result (v : Word)
  /-- By a read of `in_ready`. -/
  | ready (r : Bool)
deriving DecidableEq, Repr

/-- The registers of the block, the record of R39; `none` renders `⊥` (R12). -/
structure Block where
  /-- `BUSY` (R27). -/
  busy : Bool
  /-- `VALID` (R28). -/
  valid : Bool
  /-- `ERR[1:0]` (R30). -/
  err : BitVec 2
  /-- `ZERO` (R31). -/
  zero : Bool
  /-- `RESULT` (R29). -/
  result : Option Word
  /-- `L_OP` (R32). -/
  lOp : Option (BitVec 1)
  /-- `L_A` (R32). -/
  lA : Option Word
  /-- `L_B` (R32). -/
  lB : Option Word
  /-- `CNT` (R32). -/
  cnt : Nat
deriving DecidableEq, Repr

/-- The machine: the block, its parameter `LAT` (R39), and the model's own record of the host. -/
structure State where
  /-- The registers of the block. -/
  block : Block
  /-- The parameter `LAT` (R9): no step changes it (log entry 1). -/
  lat : Nat
  /-- The host's actions to come, the next one first (log entry 2). -/
  host : List HostAction
  /-- What the host has read, oldest first (R120, log entry 3). -/
  observed : List Observation
deriving DecidableEq, Repr

/-- Why the machine stops. -/
inductive Fault where
  /-- Raised by a host read of `out_res` while `RESULT = ⊥` (R12, R26, R112, U2): a host error. Safe: the chip shows some
  pattern, of which the model says nothing. -/
  | resultHasNoValue
  /-- Raised by a completing edge while `L_OP`, `L_A` or `L_B` is `⊥` (R12). Safe: no run from reset reaches it (log entry 6). -/
  | noCommandLatched
deriving DecidableEq, Repr

/-- Why a step has no meaning. -/
inductive Refusal where
  /-- Raised by an arm of `exec` whose instruction has no meaning yet; no arm of this model does. Safe. -/
  | notModelled (mnemonic : String)
deriving DecidableEq, Repr

/-- The machine right after reset: the registers of R37 and R106, `LAT` open, and nothing presented by the host. -/
def State.reset : State where
  block :=
    { busy := false, valid := false, err := 0#2, zero := false, result := none
      lOp := none, lA := none, lB := none, cnt := 0 }
  lat := Config.lat
  host := []
  observed := []

end Sys2Proof.Machine
end

