-- ==== Sys2Proof/Machine/Operands.lean ====
section
/-! DEFINITION. Where operands come from (R20, R21, R55): the input ports at an accepting edge, and the latches
`L_OP`, `L_A`, `L_B` after it (R32). There is no other operand form (R34, R55). -/

namespace Sys2Proof.Machine

/-- `val(v)`: the unsigned integer of a port or latch (R10). -/
abbrev val (v : Word) : Nat := v.toNat

/-- The pins of a host that presents a command (R33 "issue", R53). -/
def Ports.present (i : Instr) : Ports where
  rst := false
  inValid := true
  inOp := frameOp (encode i)
  inA := frameA (encode i)
  inB := frameB (encode i)

/-- The pins of a host that presents nothing. -/
def Ports.idle : Ports where
  rst := false
  inValid := false
  inOp := 0#1
  inA := 0#256
  inB := 0#256

/-- The pins of a host that resets the block (R61 RESET, R105). -/
def Ports.reset : Ports where
  rst := true
  inValid := false
  inOp := 0#1
  inA := 0#256
  inB := 0#256

/-- The frame on the input ports (R53). -/
def Ports.frame (p : Ports) : Frame := joinFrame p.inOp p.inA p.inB

/-- The frame held in `L_OP`, `L_A`, `L_B`, if they hold one (R32). -/
def Block.frame (b : Block) : Option Frame :=
  match b.lOp, b.lA, b.lB with
  | some op, some x, some y => some (joinFrame op x y)
  | _, _, _ => none

/-- The command held in the latches: the one in flight while `BUSY = 1` (R68). -/
def Block.command (b : Block) : Option Instr := b.frame.map decodeFrame

end Sys2Proof.Machine
end

