-- ==== Sys2Proof/Machine/Flags.lean ====
section
/-! DEFINITION. The error mask (R71, R92), the zero flag (R85) and the STATUS word (R36). -/

namespace Sys2Proof.Machine

/-- An operand is out of range when its value is at least `P` (R71). -/
def outOfRange (v : Word) : Bool := decide (Config.fieldPrime ≤ val v)

/-- The mask `{(b >= P), (a >= P)}`: bit 0 for `a`, bit 1 for `b`; both are always checked (R70, R71, R72). -/
def errMask (a b : Word) : BitVec 2 :=
  BitVec.cast (show 1 + 1 = 2 from rfl) (BitVec.ofBool (outOfRange b) ++ BitVec.ofBool (outOfRange a))

/-- The zero flag of a successful result (R85). -/
def zeroFlag (r : Nat) : Bool := decide (r = 0)

/-- `STATUS[4:0] = {ZERO, ERR[1], ERR[0], VALID, BUSY}` (R36). -/
def Block.status (b : Block) : BitVec 5 :=
  BitVec.cast (show 1 + 2 + 1 + 1 = 5 from rfl)
    (BitVec.ofBool b.zero ++ b.err ++ BitVec.ofBool b.valid ++ BitVec.ofBool b.busy)

end Sys2Proof.Machine
end

