-- ==== Sys2Proof/Machine/Ops.lean ====
section
/-! DEFINITION. The writes the block makes at an edge, one operation per kind of edge (R67, R68, R69, R106), the check
common to both commands with its MalformedInput report (R70, R71, R91), and the response a host reads (R63). -/

namespace Sys2Proof.Machine

/-! ### Edges -/

/-- What a rising edge is: the branches of R69. -/
inductive EdgeKind where
  | reset
  | accept
  | complete
  | wait
  | idle
deriving DecidableEq, Repr

/-- The branch of R69 an edge takes: reset before everything (R107), then acceptance, completion, waiting. -/
def edgeKind (b : Block) (p : Ports) : EdgeKind :=
  if p.rst then .reset
  else if !b.busy && p.inValid then .accept
  else if b.busy && decide (b.cnt = 0) then .complete
  else if b.busy then .wait
  else .idle

/-- `ResetState` (R106): the same whatever the registers held. -/
def Block.resetState : Block where
  busy := false
  valid := false
  err := 0#2
  zero := false
  result := none
  lOp := none
  lA := none
  lB := none
  cnt := 0

/-- The acceptance writes of R67. They never inspect the operands. -/
def Block.accept (lat : Nat) (p : Ports) (b : Block) : Block :=
  { b with
    lOp := some p.inOp, lA := some p.inA, lB := some p.inB
    busy := true, valid := false, err := 0#2, zero := false, result := none
    cnt := lat - 1 }

/-- A waiting edge: `CNT <- CNT - 1` (R69). -/
def Block.countDown (b : Block) : Block := { b with cnt := b.cnt - 1 }

/-! ### Responses -/

/-- What `Execute` returns: `(ERR, RESULT, ZERO)` (R70). -/
structure Response where
  err : BitVec 2
  result : Option Word
  zero : Bool
deriving DecidableEq, Repr

/-- `raise MalformedInput(mask)`: no result, no zero test, the operand mask (R13, R70, R86, R91). It is no trap (R95):
nothing is saved and nothing is entered. -/
def malformedInput (mask : BitVec 2) : Response where
  err := mask
  result := none
  zero := false

/-- A success with the field element `r` (R70, R85). -/
def success (r : Nat) : Response where
  err := 0#2
  result := some (BitVec.ofNat 256 r)
  zero := zeroFlag r

/-- `Execute` of R70 for one operation `f`: the range check comes before the arithmetic (R71, R94). -/
def checked (f : Nat → Nat → Nat) (a b : Word) : Response :=
  if errMask a b ≠ 0#2 then malformedInput (errMask a b) else success (f (val a) (val b))

/-- The completion writes of R68. -/
def Block.complete (r : Response) (b : Block) : Block :=
  { b with err := r.err, result := r.result, zero := r.zero, busy := false, valid := true }

/-- Completion in the machine: only the block's response registers change. -/
def State.complete (r : Response) (s : State) : State := { s with block := s.block.complete r }

/-- A response in the notation of R63: `OK(res, zero)` when `ERR = 00`, else `MALFORMED(err)`. `none` when `ERR = 00` and
there is no result to read. -/
def Block.reply (b : Block) : Option Reply :=
  if b.err = 0#2 then b.result.map fun v => .ok v b.zero else some (.malformed b.err)

/-- The pair `(STATUS, RES)` of R63. -/
def Block.responsePair (b : Block) : BitVec 5 × Option Word :=
  (b.status, if b.err = 0#2 then b.result else none)

end Sys2Proof.Machine
end

