-- ==== Sys2Proof/Machine/AddSub.lean ====
section
/-! DEFINITION. The two commands: their arithmetic (R79, R82), their responses (R70) and their meanings (R68). The two
conforming datapaths of R81 and R84 stand beside the arithmetic; only the value is normative. -/

namespace Sys2Proof.Machine

/-! ### ADD -/

/-- `AddMod(a, b) = (a + b) mod P` on unbounded integers (R79). -/
def addMod (a b : Nat) : Nat := (a + b) % Config.fieldPrime

/-- The response of `ADD a, b` (R70, R79). -/
def addResponse (a b : Word) : Response := checked addMod a b

/-- ADD at its completing edge (R68, R79). -/
def execAdd (a b : Word) (s : State) : Host.Outcome State Fault Refusal := .next (s.complete (addResponse a b))

/-- The 253-bit sum `s` of R81. -/
def addSum253 (a b : Word) : BitVec 253 := a.setWidth 253 + b.setWidth 253

/-- R81: one 253-bit addition, then one conditional subtraction judged by the sign of a 254-bit difference. -/
def addDatapath (a b : Word) : Word :=
  let s := addSum253 a b
  let t := s.setWidth 254 - BitVec.ofNat 254 Config.fieldPrime
  if t.msb then s.setWidth 256 else t.setWidth 256

/-! ### SUB -/

/-- `SubMod(a, b) = (a - b) mod P` on unbounded integers, `mod` of a negative integer as R11 (R82). -/
def subMod (a b : Nat) : Nat := (((a : Int) - (b : Int)) % (Config.fieldPrime : Int)).toNat

/-- The response of `SUB a, b` (R70, R82). -/
def subResponse (a b : Word) : Response := checked subMod a b

/-- SUB at its completing edge (R68, R82). -/
def execSub (a b : Word) (s : State) : Host.Outcome State Fault Refusal := .next (s.complete (subResponse a b))

/-- The 253-bit signed difference `d` of R84. -/
def subDiff253 (a b : Word) : BitVec 253 := a.setWidth 253 - b.setWidth 253

/-- R84: one subtraction, then one conditional addition judged by the sign. -/
def subDatapath (a b : Word) : Word :=
  let d := subDiff253 a b
  let r := if d.msb then d + BitVec.ofNat 253 Config.fieldPrime else d
  r.setWidth 256

/-! ### Both -/

/-- `Execute(op, a, b)` (R70), of the command as decoded. -/
def execute : Instr → Response
  | .add a b => addResponse a b
  | .sub a b => subResponse a b

end Sys2Proof.Machine
end

