-- ==== Sys2Proof/Machine/Clock.lean ====
section
/-! DEFINITION. One rising edge of `clk` (R69) and the output ports between two edges (R18, R22 to R26). -/

namespace Sys2Proof.Machine

/-- `in_ready = (BUSY = 0) and (rst = 0)` (R18). -/
def Block.inReady (b : Block) (rst : Bool) : Bool := !b.busy && !rst

/-- The output ports. `outRes` is `none` where the pattern on `out_res` has no value (R26). -/
structure Outputs where
  inReady : Bool
  outBusy : Bool
  outValid : Bool
  outErr : BitVec 2
  outZero : Bool
  outRes : Option Word
deriving DecidableEq, Repr

/-- The output ports while the host drives this `rst` (R18, R22 to R26). -/
def Block.outputs (b : Block) (rst : Bool) : Outputs where
  inReady := b.inReady rst
  outBusy := b.busy
  outValid := b.valid
  outErr := b.err
  outZero := b.zero
  outRes := b.result

/-- `Step(s, rst, in_valid, in_op, in_a, in_b)` of R69: one rising edge with these pins. At a completing edge the command
in the latches runs; latches that hold none are read where there is no value (R12, log entry 6). -/
def clock (p : Ports) (s : State) : Host.Outcome State Fault Refusal :=
  match edgeKind s.block p with
  | .reset => .next { s with block := Block.resetState }
  | .accept => .next { s with block := s.block.accept s.lat p }
  | .complete =>
    match s.block.command with
    | some i => exec i s
    | none => .fault .noCommandLatched
  | .wait => .next { s with block := s.block.countDown }
  | .idle => .next s

end Sys2Proof.Machine
end

