-- ==== Sys2Proof/Machine/HostActions.lean ====
section
/-! DEFINITION. What one action of the host does to the machine (R33, R61). Reads take no edge and change nothing but the
host's own record (R47). -/

namespace Sys2Proof.Machine

/-- The host notes what it has read. -/
def State.observe (o : Observation) (s : State) : State := { s with observed := s.observed ++ [o] }

/-- A read of `out_res`: no value where `RESULT = ⊥` (R12, R26, R112). -/
def readResult (s : State) : Host.Outcome State Fault Refusal :=
  match s.block.result with
  | some v => .next (s.observe (.result v))
  | none => .fault .resultHasNoValue

/-- READ: `out_err`, `out_zero` and, when `out_err = 00`, `out_res` (R61, R63). -/
def readReply (s : State) : Host.Outcome State Fault Refusal :=
  match s.block.reply with
  | some r => .next (s.observe (.reply r))
  | none => .fault .resultHasNoValue

/-- RESET: `rst = 1` for one edge (R61). -/
def HostAction.reset : HostAction := .edge Ports.reset

/-- One action of the host, with `rest` the actions after it. ISSUE stays until the edge that accepts it (R33, R114); WAIT
passes edges with nothing presented until `out_valid = 1` (R61, log entry 14). -/
def perform (act : HostAction) (rest : List HostAction) (s : State) : Host.Outcome State Fault Refusal :=
  match act with
  | .edge p => clock p { s with host := rest }
  | .issue i =>
    clock (Ports.present i) { s with host := if s.block.inReady false then rest else .issue i :: rest }
  | .wait =>
    if s.block.valid then .next { s with host := rest }
    else clock Ports.idle { s with host := .wait :: rest }
  | .read => readReply { s with host := rest }
  | .readStatus => .next ({ s with host := rest }.observe (.status s.block.status))
  | .readResult => readResult { s with host := rest }
  | .readReady rst => .next ({ s with host := rest }.observe (.ready (s.block.inReady rst)))

/-- The block with the command of a frame in flight and due at the next edge: what R67 writes at acceptance, with `CNT = 0` as it
stands just before the completing edge (R68). -/
def Block.due (w : Frame) (b : Block) : Block :=
  b.accept 1 { rst := false, inValid := true, inOp := frameOp w, inA := frameA w, inB := frameB w }

end Sys2Proof.Machine
end

