-- ==== Sys2Proof/Machine/Step.lean ====
section
/-! DEFINITION. One step of the machine: the next action of the host, or an edge with nothing presented when it has none
(R120). -/

namespace Sys2Proof.Machine

/-- One step: one rising edge of `clk` or one read between two edges (log entry 18). -/
def step (s : State) : Host.Outcome State Fault Refusal :=
  match s.host with
  | [] => clock Ports.idle s
  | act :: rest => perform act rest s

/-- The state `s` with the command whose frame is `w` in flight and the completing edge next: there the block takes its
command from `L_OP`, `L_A`, `L_B` (R68; log entry 4). The frame's 513 bits are the whole instruction whatever `nbits` is. -/
def State.withFetchWord (s : State) (_nbits w : Nat) : State :=
  { s with
    block := s.block.due (frameOfNat w)
    host := .edge Ports.idle :: s.host }

end Sys2Proof.Machine
end

