-- ==== Sys2Proof/Machine/Asm.lean ====
section
/-! DEFINITION. The assembler and the disassembler of R61 and R62, on lists of characters. -/

namespace Sys2Proof.Machine

/-- An integer literal (R61): `0x` and 1 to 64 hexadecimal digits, or decimal digits; refused from `2^256` on. -/
def literal (cs : List Char) : Option Word :=
  let value :=
    match cs with
    | '0' :: 'x' :: ds =>
      if 1 ≤ ds.length ∧ ds.length ≤ 64 then digitsValue 16 hexDigit 0 ds else none
    | ds => if ds = [] then none else digitsValue 10 decDigit 0 ds
  match value with
  | some v => if v < 2 ^ 256 then some (BitVec.ofNat 256 v) else none
  | none => none

/-- The words that begin a line (R61, R62). -/
inductive Spelling where
  | add
  | sub
  | neg
  | dbl
  | tst
  | eq
  | reset
  | wait
  | read
deriving DecidableEq, Repr

/-- A word in upper or in lower case (R61; log entry 12). -/
def spelling (cs : List Char) : Option Spelling :=
  if cs = ['A', 'D', 'D'] ∨ cs = ['a', 'd', 'd'] then some .add
  else if cs = ['S', 'U', 'B'] ∨ cs = ['s', 'u', 'b'] then some .sub
  else if cs = ['N', 'E', 'G'] ∨ cs = ['n', 'e', 'g'] then some .neg
  else if cs = ['D', 'B', 'L'] ∨ cs = ['d', 'b', 'l'] then some .dbl
  else if cs = ['T', 'S', 'T'] ∨ cs = ['t', 's', 't'] then some .tst
  else if cs = ['E', 'Q'] ∨ cs = ['e', 'q'] then some .eq
  else if cs = ['R', 'E', 'S', 'E', 'T'] ∨ cs = ['r', 'e', 's', 'e', 't'] then some .reset
  else if cs = ['W', 'A', 'I', 'T'] ∨ cs = ['w', 'a', 'i', 't'] then some .wait
  else if cs = ['R', 'E', 'A', 'D'] ∨ cs = ['r', 'e', 'a', 'd'] then some .read
  else none

/-- A text without the spaces at its two ends. -/
def trim (cs : List Char) : List Char :=
  ((cs.dropWhile (· == ' ')).reverse.dropWhile (· == ' ')).reverse

/-- The two operands of `a, b`. -/
def operands2 (cs : List Char) : Option (Word × Word) :=
  match cs.dropWhile (· != ',') with
  | _ :: ys =>
    match literal (trim (cs.takeWhile (· != ','))), literal (trim ys) with
    | some a, some b => some (a, b)
    | _, _ => none
  | [] => none

/-- One line of a test program (R61): a command or pseudo-instruction to issue, or a host action. -/
def assembleLine (cs : List Char) : Option HostAction :=
  let line := trim cs
  let args := trim (line.dropWhile (· != ' '))
  match spelling (line.takeWhile (· != ' ')) with
  | some .add => (operands2 args).map fun o => .issue (.add o.1 o.2)
  | some .sub => (operands2 args).map fun o => .issue (.sub o.1 o.2)
  | some .neg => (literal args).map fun b => .issue (Pseudo.neg b).expand
  | some .dbl => (literal args).map fun a => .issue (Pseudo.dbl a).expand
  | some .tst => (literal args).map fun a => .issue (Pseudo.tst a).expand
  | some .eq => (operands2 args).map fun o => .issue (Pseudo.eq o.1 o.2).expand
  | some .reset => if args = [] then some HostAction.reset else none
  | some .wait => if args = [] then some .wait else none
  | some .read => if args = [] then some .read else none
  | none => none

/-- The frame a line spells, if it is a command or a pseudo-instruction; a host action has no frame (R61). -/
def assemble (cs : List Char) : Option Frame :=
  match assembleLine cs with
  | some (.issue i) => some (encode i)
  | _ => none

/-- The text of a 256-bit literal: `0x` and 64 digits. -/
def literalText (v : Word) : List Char := '0' :: 'x' :: hexDigits 64 v.toNat

/-- The text of a command; a pseudo-instruction is printed as the command it expands to (R62). -/
def disassemble (i : Instr) : List Char :=
  let name := match i with
    | .add _ _ => ['A', 'D', 'D']
    | .sub _ _ => ['S', 'U', 'B']
  name ++ ' ' :: literalText i.opA ++ ',' :: ' ' :: literalText i.opB

end Sys2Proof.Machine
end

