-- ==== Sys2Proof/Machine/Instances.lean ====
section
/-! DEFINITION. A system of any number of instances of the block (R102): each has its own state and nothing is shared. -/

namespace Sys2Proof.Machine

/-- One step of instance `k` of a system. Where there is no instance `k`, nothing happens. -/
def stepInstance (k : Nat) (sys : List State) : Host.Outcome (List State) Fault Refusal :=
  match sys[k]? with
  | none => .next sys
  | some s =>
    match step s with
    | .next t => .next (sys.set k t)
    | .fault r => .fault r
    | .refused r => .refused r

end Sys2Proof.Machine
end

