-- ==== Sys2Proof/Machine/EndOfRun.lean ====
section
/-! DEFINITION. The end of a run and what is observed of it (R120). -/

namespace Sys2Proof.Machine

/-- The host's next action is an edge at which it drives `in_valid = 1`. -/
def State.presents (s : State) : Bool :=
  match s.host with
  | .edge p :: _ => p.inValid
  | .issue _ :: _ => true
  | _ => false

/-- From the registers `b` with `BUSY = 0`, a host with these actions to come presents no command: `in_valid = 0` forever (R120).
RESET presents none. What stands after a WAIT for a response that cannot come, or after a read that is a host error, never happens
(log entry 20). -/
def Block.noCommandFollows (b : Block) : List HostAction → Bool
  | [] => true
  | .edge p :: rest => !p.inValid && (if p.rst then Block.resetState else b).noCommandFollows rest
  | .issue _ :: _ => false
  | .wait :: rest => if b.valid then b.noCommandFollows rest else true
  | .read :: rest => if b.reply.isSome then b.noCommandFollows rest else true
  | .readResult :: rest => if b.result.isSome then b.noCommandFollows rest else true
  | .readStatus :: rest => b.noCommandFollows rest
  | .readReady _ :: rest => b.noCommandFollows rest

/-- The run has ended: `BUSY = 0` and the host presents no further command (R120). -/
def State.ended (s : State) : Bool := !s.block.busy && s.block.noCommandFollows s.host

/-- The final observation of R120: `VALID`, `ERR`, `ZERO`, `RESULT`, and what the host read during the run. -/
structure FinalObservation where
  valid : Bool
  err : BitVec 2
  zero : Bool
  result : Option Word
  reads : List Observation
deriving DecidableEq, Repr

/-- What is observed of a run that has ended in `s` (R120; log entry 20 for reads still to come). -/
def State.finalObservation (s : State) : FinalObservation where
  valid := s.block.valid
  err := s.block.err
  zero := s.block.zero
  result := s.block.result
  reads := s.observed

end Sys2Proof.Machine
end

