-- ==== Sys2Proof/Safety.lean ====
section
/-! DEFINITION. The terms in which claims speak of a run: the invariant of the registers, runs of several steps, and a host that
makes no error (R33). The end of a run stands in Machine/EndOfRun.lean. -/

namespace Sys2Proof.Machine

/-- What the registers of a block of latency `lat` satisfy in every state that a run from reset reaches (R27 to R32). -/
structure Block.Inv (lat : Nat) (b : Block) : Prop where
  /-- `VALID = 1` and `BUSY = 1` never hold together (R28). -/
  exclusive : ¬(b.busy = true ∧ b.valid = true)
  /-- A command in flight is in the latches (R27, R32). -/
  inFlight : b.busy = true → b.command.isSome = true
  /-- `VALID = 1`: the response registers hold the response of the most recently accepted command (R28). -/
  response : b.valid = true → ∃ i, b.command = some i ∧ b.err = (execute i).err ∧ b.result = (execute i).result ∧ b.zero = (execute i).zero
  /-- `VALID = 0`: there is no response (R29, R30, R31). -/
  noResponse : b.valid = false → b.err = 0#2 ∧ b.zero = false ∧ b.result = none
  /-- Neither in flight nor answered: nothing has been accepted since the last reset edge (R37). -/
  fresh : b.busy = false → b.valid = false → b.command = none
  /-- The latches are written together and cleared together (R46, R106). -/
  latches : (b.lOp.isSome = b.lA.isSome) ∧ (b.lA.isSome = b.lB.isSome)
  /-- `CNT` counts only while a command is in flight, and starts from `LAT - 1` (R32). -/
  counter : b.cnt < lat ∧ (b.busy = false → b.cnt = 0)

/-- The invariant of the machine: the latency is at least 1 (R9) and the registers are as above. -/
structure State.Inv (s : State) : Prop where
  latency : 1 ≤ s.lat
  block : s.block.Inv s.lat

/-- `n` steps of the machine, as the host runs them. -/
def run (n : Nat) (s : State) : Host.Outcome State Fault Refusal := Host.Core.run Sys2Proof.core n s

/-- The next action of the host is one it may take: it reads `out_res` only where there is a value (R33, R112). -/
def State.hostKeepsDuty (s : State) : Bool :=
  match s.host with
  | .readResult :: _ => s.block.result.isSome
  | .read :: _ => s.block.reply.isSome
  | _ => true

end Sys2Proof.Machine
end

