-- ==== Sys2Proof/Certificates/Slice0/Obligations.lean ====
section
/-! DEFINITION. What is claimed of the block, in the terms of the spec's numbered rules. -/

open Sys2Proof Sys2Proof.Machine
open Sys2Proof.Config (fieldPrime)

namespace Sys2Proof.Claims

/-- The mask `{(b >= P), (a >= P)}` of two operands, written out (R70, R71). -/
def rangeMask (a b : Word) : BitVec 2 :=
  match decide (fieldPrime ≤ b.toNat), decide (fieldPrime ≤ a.toNat) with
  | false, false => 0b00#2
  | false, true => 0b01#2
  | true, false => 0b10#2
  | true, true => 0b11#2

/-- The command `i` completes at `s` with the result `v` and the zero flag `z`, and writes nothing else: the latches, `CNT`,
`LAT` and the host's list and record stay (R68). -/
def CompletesOk (i : Instr) (s : State) (v : Word) (z : Bool) : Prop :=
  exec i s = .next
    { s with block := { s.block with busy := false, valid := true, err := 0b00#2, zero := z, result := some v } }

/-- The command `i` completes at `s` with MalformedInput and the mask `m`, and writes nothing else (R91). -/
def CompletesMalformed (i : Instr) (s : State) (m : BitVec 2) : Prop :=
  exec i s = .next
    { s with block := { s.block with busy := false, valid := true, err := m, zero := false, result := none } }

/-- The value `v` as a word. -/
abbrev word (v : Nat) : Word := BitVec.ofNat 256 v

/-- The digit `op` of a command's frame text (R54, R65). -/
def opDigit : Instr → Char
  | .add _ _ => '0'
  | .sub _ _ => '1'

/-- The exact sum or difference of a command's operands, before any reduction (R11, R75). -/
def exactValue : Instr → Int
  | .add a b => (a.toNat : Int) + (b.toNat : Int)
  | .sub a b => (a.toNat : Int) - (b.toNat : Int)

/-- The response `OK(res, zero)` or `MALFORMED(err)` of a command, from R70, R71, R79, R82 alone. -/
def expectedReply : Instr → Reply
  | .add a b =>
    if a.toNat < fieldPrime ∧ b.toNat < fieldPrime then
      .ok (word ((a.toNat + b.toNat) % fieldPrime)) (decide ((a.toNat + b.toNat) % fieldPrime = 0))
    else .malformed (rangeMask a b)
  | .sub a b =>
    if a.toNat < fieldPrime ∧ b.toNat < fieldPrime then
      .ok (word ((a.toNat + (fieldPrime - b.toNat)) % fieldPrime)) (decide (a = b))
    else .malformed (rangeMask a b)

/-- The host action is an edge. -/
def isEdge : HostAction → Bool
  | .edge _ => true
  | _ => false

/-- An action that cannot disturb a command in flight and cannot be a host error: an edge without reset, or a read of the status
outputs. -/
def Quiet : HostAction → Prop
  | .edge p => p.rst = false
  | .readStatus => True
  | .readReady _ => True
  | _ => False

end Sys2Proof.Claims

open Sys2Proof.Claims

/-! ### Constants and encoding -/

/-- R3, R4: the literal of `P`, its value in powers of two, and the widths that follow. -/
def Obligations.FieldPrimeIsTheLiteralOfWidth252 : Prop :=
  fieldPrime = 0x0800000000000011000000000000000000000000000000000000000000000001 ∧
  fieldPrime = 2 ^ 251 + 17 * 2 ^ 192 + 1 ∧
  2 ^ 251 < fieldPrime ∧ fieldPrime < 2 ^ 252 ∧
  (word fieldPrime).getLsbD 251 = true ∧ (word fieldPrime).extractLsb' 252 4 = 0b0000#4 ∧
  2 * fieldPrime < 2 ^ 253 ∧
  ∀ a b : Nat, a < fieldPrime → b < fieldPrime → a + b < 2 ^ 253

/-- R54, R66: bit 512 selects ADD or SUB, the operands are the two 256-bit fields, and the decoder judges no operand. -/
def Obligations.FrameDecodesByItsOpBit : Prop :=
  ∀ w : Frame,
    decodeFrame w =
      (if w.getLsbD 512 = false then Instr.add (word (w.toNat / 2 ^ 256)) (word w.toNat)
       else Instr.sub (word (w.toNat / 2 ^ 256)) (word w.toNat)) ∧
    (w &&& (1#513 <<< 512) = 0#513 ↔ ∃ a b, decodeFrame w = .add a b) ∧
    (w &&& (1#513 <<< 512) = 1#513 <<< 512 ↔ ∃ a b, decodeFrame w = .sub a b)

/-- Decoding an encoded command gives it back, with every operand value, and encoding a decoded frame gives the frame back. -/
def Obligations.DecodeAndEncodeAreInverse : Prop :=
  (∀ i : Instr, decodeFrame (encode i) = i) ∧ (∀ w : Frame, encode (decodeFrame w) = w) ∧
  (∀ i : Instr, decodeTableWord 520 (encode i).toNat = some i)

/-- A number with a bit above bit 512 spells no frame and is refused by name; every other number is a frame's. -/
def Obligations.DecoderRefusesExactlyNonFrames : Prop :=
  ∀ n : Nat, (2 ^ 513 ≤ n → decodeNat n = .error .bitAboveFrame) ∧
    (n < 2 ^ 513 → decodeNat n = .ok (decodeFrame (BitVec.ofNat 513 n)))

/-- R65: the text of a frame is `0x`, one digit `op` that is `0` or `1`, and 64 digits for each operand; as a number it is the
frame's value, and reading it gives the command. -/
def Obligations.FrameTextSpellsTheFrame : Prop :=
  ∀ i : Instr, ∃ ds : List Char,
    encodeHex i = '0' :: 'x' :: ds ∧ ds.length = 129 ∧
    ds.head? = some (opDigit i) ∧
    digitsValue 16 hexDigit 0 (ds.tail.take 64) = some i.opA.toNat ∧
    digitsValue 16 hexDigit 0 (ds.tail.drop 64) = some i.opB.toNat ∧
    digitsValue 16 hexDigit 0 ds = some (encode i).toNat ∧
    decodeHex (encodeHex i) = .ok i

/-- The frames written out in 95_test_vectors.md section 5 decode to the commands they stand for. -/
def Obligations.SampleFramesDecode : Prop :=
  decodeTableWord 520 0x000000000000000000000000000000000000000000000000000000000000000010000000000000000000000000000000000000000000000000000000000000002 = some (.add 0x1#256 0x2#256) ∧
  decodeTableWord 520 0x100000000000000000000000000000000000000000000000000000000000000000000000000000000000000000000000000000000000000000000000000000001 = some (.sub 0x0#256 0x1#256) ∧
  decodeTableWord 520 0x008000000000000110000000000000000000000000000000000000000000000000000000000000000000000000000000000000000000000000000000000000001 = some (.add 0x800000000000011000000000000000000000000000000000000000000000000#256 0x1#256) ∧
  decodeTableWord 520 0x108000000000000110000000000000000000000000000000000000000000000010000000000000000000000000000000000000000000000000000000000000001 = some (.sub 0x800000000000011000000000000000000000000000000000000000000000001#256 0x1#256)

/-- R42, R14: byte `k` of the serialisation is bits `255-8k : 248-8k`; `from_be32` is its inverse both ways; the value is the
sum of `B[k] * 256^(31-k)`; and `P` serialises as the spec writes it. -/
def Obligations.SerialisationIsBigEndian : Prop :=
  (∀ v : Word, (be32 v).length = 32 ∧
    (∀ k, k < 32 → ∀ j, j < 8 → ((be32 v)[k]?.map fun x => x.getLsbD j) = some (v.getLsbD (248 - 8 * k + j))) ∧
    fromBe32 (be32 v) = some v ∧
    v.toNat = ((List.range 32).map fun k => (((be32 v)[k]?).getD 0#8).toNat * 256 ^ (31 - k)).sum) ∧
  (∀ bs : List Byte, bs.length = 32 → ∃ v, fromBe32 bs = some v ∧ be32 v = bs) ∧
  be32 (word fieldPrime) =
    [0x08#8, 0#8, 0#8, 0#8, 0#8, 0#8, 0#8, 0x11#8] ++ List.replicate 23 0#8 ++ [0x01#8]

/-- The text the disassembler prints for a command assembles back to that command and its frame. -/
def Obligations.AssembleUndoesDisassemble : Prop :=
  ∀ i : Instr, assembleLine (disassemble i) = some (.issue i) ∧ assemble (disassemble i) = some (encode i)

/-- The literals of the assembler (R61): `0x` and 1 to 64 hexadecimal digits, or decimal digits; from `2^256` on none. -/
def Obligations.LiteralsDenote256BitValues : Prop :=
  ∀ (ds : List Char) (v : Nat),
    (digitsValue 16 hexDigit 0 ds = some v → 1 ≤ ds.length → ds.length ≤ 64 →
      v < 2 ^ 256 ∧ literal ('0' :: 'x' :: ds) = some (word v)) ∧
    (ds.length = 0 ∨ 64 < ds.length → literal ('0' :: 'x' :: ds) = none) ∧
    (digitsValue 10 decDigit 0 ds = some v → 1 ≤ ds.length →
      literal ds = if v < 2 ^ 256 then some (word v) else none)

/-- R62: what each pseudo-instruction expands to and the response it has. -/
def Obligations.PseudoInstructionsRespondAsTabulated : Prop :=
  (∀ b, (Pseudo.neg b).expand = .sub (word 0) b) ∧ (∀ a, (Pseudo.dbl a).expand = .add a a) ∧
  (∀ a, (Pseudo.tst a).expand = .add a (word 0)) ∧ (∀ a b, (Pseudo.eq a b).expand = .sub a b) ∧
  ∀ (a b : Word) (s : State),
    (b.toNat < fieldPrime → CompletesOk (Pseudo.neg b).expand s
      (if b.toNat = 0 then word 0 else word (fieldPrime - b.toNat)) (decide (b.toNat = 0))) ∧
    (a.toNat < fieldPrime → CompletesOk (Pseudo.dbl a).expand s
      (word ((2 * a.toNat) % fieldPrime)) (decide ((2 * a.toNat) % fieldPrime = 0))) ∧
    (a.toNat < fieldPrime → CompletesOk (Pseudo.tst a).expand s a (decide (a.toNat = 0))) ∧
    (fieldPrime ≤ a.toNat → CompletesMalformed (Pseudo.tst a).expand s 0b01#2) ∧
    (a.toNat < fieldPrime → b.toNat < fieldPrime →
      ∃ v, CompletesOk (Pseudo.eq a b).expand s v (decide (a = b)))

/-- R56: an operand with a bit of 255..252 set is out of range; one without is out of range exactly from `P` on. -/
def Obligations.TopBitsPutAnOperandOutOfRange : Prop :=
  ∀ v : Word, (v.extractLsb' 252 4 ≠ 0b0000#4 → fieldPrime ≤ v.toNat ∧ isFieldElement v = false) ∧
    (v.extractLsb' 252 4 = 0b0000#4 → (isFieldElement v = false ↔ fieldPrime ≤ v.toNat))

/-! ### ADD and SUB at their completing edge -/

/-- R79: ADD, its operands and frame, its result and flags, its exception and its corner cases. -/
def Obligations.AddCompletesWithTheFieldSum : Prop :=
  ∀ (a b : Word) (s : State),
    (∀ p : Ports, p.inOp = 0#1 → p.inA = a → p.inB = b →
      p.frame = encode (.add a b) ∧ (s.block.accept s.lat p).command = some (.add a b)) ∧
    (a.toNat < fieldPrime → b.toNat < fieldPrime →
      CompletesOk (.add a b) s (word ((a.toNat + b.toNat) % fieldPrime))
        (decide ((a.toNat + b.toNat) % fieldPrime = 0))) ∧
    (fieldPrime ≤ a.toNat ∨ fieldPrime ≤ b.toNat → CompletesMalformed (.add a b) s (rangeMask a b)) ∧
    CompletesOk (.add (word 0) (word 0)) s (word 0) true ∧
    CompletesOk (.add (word (fieldPrime - 1)) (word 1)) s (word 0) true ∧
    CompletesOk (.add (word (fieldPrime - 1)) (word (fieldPrime - 1))) s (word (fieldPrime - 2)) false ∧
    (a.toNat < fieldPrime → CompletesOk (.add a (word 0)) s a (decide (a.toNat = 0))) ∧
    (a.toNat < fieldPrime → (.add a a : Instr) = (Pseudo.dbl a).expand) ∧
    CompletesOk (.add (word ((fieldPrime + 1) / 2)) (word ((fieldPrime + 1) / 2))) s (word 1) false ∧
    CompletesMalformed (.add (word fieldPrime) (word 0)) s 0b01#2 ∧
    CompletesOk (.add 0x0800000000000011000000000000000000000000000000000000000000000000#256 0x1#256) s (word 0) true

/-- R82: SUB, its operands and frame, its result and flags, its exception and its corner cases. -/
def Obligations.SubCompletesWithTheFieldDifference : Prop :=
  ∀ (a b : Word) (s : State),
    (Pseudo.neg (word 0)).expand = .sub (word 0) (word 0) ∧
    (∀ p : Ports, p.inOp = 1#1 → p.inA = a → p.inB = b →
      p.frame = encode (.sub a b) ∧ (s.block.accept s.lat p).command = some (.sub a b)) ∧
    (a.toNat < fieldPrime → b.toNat < fieldPrime →
      CompletesOk (.sub a b) s (word (((a.toNat : Int) - (b.toNat : Int)) % (fieldPrime : Int)).toNat)
        (decide (((a.toNat : Int) - (b.toNat : Int)) % (fieldPrime : Int) = 0)) ∧
      (((a.toNat : Int) - (b.toNat : Int)) % (fieldPrime : Int) = 0 ↔ a = b)) ∧
    (fieldPrime ≤ a.toNat ∨ fieldPrime ≤ b.toNat → CompletesMalformed (.sub a b) s (rangeMask a b)) ∧
    CompletesOk (.sub (word 0) (word 0)) s (word 0) true ∧
    (a.toNat < fieldPrime → CompletesOk (.sub a a) s (word 0) true) ∧
    CompletesOk (.sub (word 0) (word 1)) s (word (fieldPrime - 1)) false ∧
    CompletesOk (.sub (word 0) (word (fieldPrime - 1))) s (word 1) false ∧
    CompletesOk (.sub (word 1) (word (fieldPrime - 1))) s (word 2) false ∧
    CompletesOk (.sub (word (fieldPrime - 1)) (word 0)) s (word (fieldPrime - 1)) false ∧
    CompletesMalformed (.sub (word fieldPrime) (word 1)) s 0b01#2 ∧
    CompletesMalformed (.sub (word 1) (word fieldPrime)) s 0b10#2 ∧
    CompletesOk (.sub 0x0#256 0x1#256) s
      0x0800000000000011000000000000000000000000000000000000000000000000#256 false

/-- A command at its completing edge answers a next state and leaves the latches, `CNT`, `LAT` and the host's list and record as
they were: ADD and SUB alike, for every operand. -/
def Obligations.CommandsWriteOnlyTheResponseRegisters : Prop :=
  ∀ (i : Instr) (s : State), ∃ t, exec i s = .next t ∧
    t.block.busy = false ∧ t.block.valid = true ∧
    t.block.lOp = s.block.lOp ∧ t.block.lA = s.block.lA ∧ t.block.lB = s.block.lB ∧ t.block.cnt = s.block.cnt ∧
    t.lat = s.lat ∧ t.host = s.host ∧ t.observed = s.observed

/-- R71, R72, R92: a command fails exactly when an operand is out of range; each bit of the mask is the check of its own operand. -/
def Obligations.ErrorMaskNamesTheOperandsOutOfRange : Prop :=
  ∀ (i : Instr) (s : State), ∃ t, exec i s = .next t ∧
    t.block.err.getLsbD 0 = decide (fieldPrime ≤ i.opA.toNat) ∧
    t.block.err.getLsbD 1 = decide (fieldPrime ≤ i.opB.toNat) ∧
    (t.block.result = none ↔ (fieldPrime ≤ i.opA.toNat ∨ fieldPrime ≤ i.opB.toNat)) ∧
    (t.block.err = 0b00#2 ↔ (i.opA.toNat < fieldPrime ∧ i.opB.toNat < fieldPrime)) ∧
    (t.block.err = 0b01#2 ↔ (fieldPrime ≤ i.opA.toNat ∧ i.opB.toNat < fieldPrime)) ∧
    (t.block.err = 0b10#2 ↔ (i.opA.toNat < fieldPrime ∧ fieldPrime ≤ i.opB.toNat)) ∧
    (t.block.err = 0b11#2 ↔ (fieldPrime ≤ i.opA.toNat ∧ fieldPrime ≤ i.opB.toNat))

/-- R86, R91: a command with an operand out of range is answered with the non-zero mask of its operands, no result and no zero
test, and nothing else is written or recorded. -/
def Obligations.MalformedCommandsFailWithNoResult : Prop :=
  ∀ (i : Instr) (s : State), fieldPrime ≤ i.opA.toNat ∨ fieldPrime ≤ i.opB.toNat →
    ∃ m : BitVec 2, m ≠ 0b00#2 ∧ m.getLsbD 0 = decide (fieldPrime ≤ i.opA.toNat) ∧
      m.getLsbD 1 = decide (fieldPrime ≤ i.opB.toNat) ∧ CompletesMalformed i s m

/-- R103: a response has a result that is a field element, or an error and no result. -/
def Obligations.ResponsesAreNeverPartial : Prop :=
  ∀ (i : Instr) (s : State), ∃ t, exec i s = .next t ∧
    ((t.block.err = 0b00#2 ∧ ∃ r, t.block.result = some r ∧ r.toNat < fieldPrime) ∨
     (t.block.err ≠ 0b00#2 ∧ t.block.result = none))

/-- R78, R11: the result of a successful command is the one value in `[0, P)` that is congruent to the exact sum or difference. -/
def Obligations.ResultsAreCanonicalResidues : Prop :=
  ∀ (i : Instr) (s : State), i.opA.toNat < fieldPrime → i.opB.toNat < fieldPrime →
    ∃ t r, exec i s = .next t ∧ t.block.err = 0b00#2 ∧ t.block.result = some r ∧
      r.toNat < fieldPrime ∧ r.extractLsb' 252 4 = 0b0000#4 ∧
      (∀ x : Nat, x < fieldPrime →
        ((fieldPrime : Int) ∣ exactValue i - (x : Int) ↔ x = r.toNat)) ∧
      ((fieldPrime : Int) ∣ (r.toNat : Int) → r = word 0)

/-- R85: after a success `ZERO` tells whether the result is 0; after ADD that is `b = SubMod(0, a)`, after SUB `a = b`. -/
def Obligations.ZeroFlagTestsTheResult : Prop :=
  ∀ (a b : Word) (s : State), a.toNat < fieldPrime → b.toNat < fieldPrime →
    (∃ t, exec (.add a b) s = .next t ∧ (t.block.zero = true ↔ t.block.result = some (word 0)) ∧
      (t.block.zero = true ↔ b.toNat = subMod 0 a.toNat)) ∧
    (∃ t, exec (.sub a b) s = .next t ∧ (t.block.zero = true ↔ t.block.result = some (word 0)) ∧
      (t.block.zero = true ↔ a = b))

/-- R80: the laws of ADD over field elements, and its response with the operands exchanged. -/
def Obligations.AdditionLawsHold : Prop :=
  (∀ a b c : Nat, a < fieldPrime → b < fieldPrime → c < fieldPrime →
    addMod a b = addMod b a ∧
    addMod (addMod a b) c = addMod a (addMod b c) ∧
    addMod a 0 = a ∧
    addMod a (subMod 0 a) = 0 ∧
    addMod a b = (if a + b < fieldPrime then a + b else a + b - fieldPrime)) ∧
  (∀ a b : Word, (execute (.add b a)).result = (execute (.add a b)).result ∧
    (execute (.add b a)).zero = (execute (.add a b)).zero ∧
    (execute (.add b a)).err.getLsbD 0 = (execute (.add a b)).err.getLsbD 1 ∧
    (execute (.add b a)).err.getLsbD 1 = (execute (.add a b)).err.getLsbD 0)

/-- R83: the laws of SUB over field elements. -/
def Obligations.SubtractionLawsHold : Prop :=
  ∀ a b : Nat, a < fieldPrime → b < fieldPrime →
    subMod a b = addMod a (subMod 0 b) ∧
    subMod a 0 = a ∧ subMod a a = 0 ∧
    addMod (subMod a b) b = a ∧
    addMod (subMod a b) (subMod b a) = 0 ∧
    (a ≠ b → subMod b a = fieldPrime - subMod a b) ∧
    subMod a b = (if b ≤ a then a - b else a + fieldPrime - b)

/-- R81, R75: one 253-bit addition holds the exact sum, and with one conditional subtraction gives exactly `AddMod`. -/
def Obligations.AddDatapathGivesAddMod : Prop :=
  ∀ a b : Word, a.toNat < fieldPrime → b.toNat < fieldPrime →
    (addSum253 a b).toNat = a.toNat + b.toNat ∧ a.toNat + b.toNat ≤ 2 * fieldPrime - 2 ∧
    (addDatapath a b).toNat = addMod a.toNat b.toNat

/-- R84, R75: one 253-bit signed subtraction holds the exact difference, and with one conditional addition gives exactly
`SubMod`. -/
def Obligations.SubDatapathGivesSubMod : Prop :=
  ∀ a b : Word, a.toNat < fieldPrime → b.toNat < fieldPrime →
    (subDiff253 a b).toInt = (a.toNat : Int) - (b.toNat : Int) ∧
    -((fieldPrime : Int) - 1) ≤ (a.toNat : Int) - (b.toNat : Int) ∧
    (a.toNat : Int) - (b.toNat : Int) ≤ (fieldPrime : Int) - 1 ∧
    (subDatapath a b).toNat = subMod a.toNat b.toNat

/-- R76: every command whose operands are `0` or `P - 1` succeeds, with the outputs of R79 and R82. -/
def Obligations.BoundaryOperandsSucceed : Prop :=
  ∀ s : State,
    CompletesOk (.add (word 0) (word 0)) s (word 0) true ∧
    CompletesOk (.add (word 0) (word (fieldPrime - 1))) s (word (fieldPrime - 1)) false ∧
    CompletesOk (.add (word (fieldPrime - 1)) (word 0)) s (word (fieldPrime - 1)) false ∧
    CompletesOk (.add (word (fieldPrime - 1)) (word (fieldPrime - 1))) s (word (fieldPrime - 2)) false ∧
    CompletesOk (.sub (word 0) (word 0)) s (word 0) true ∧
    CompletesOk (.sub (word 0) (word (fieldPrime - 1))) s (word 1) false ∧
    CompletesOk (.sub (word (fieldPrime - 1)) (word 0)) s (word (fieldPrime - 1)) false ∧
    CompletesOk (.sub (word (fieldPrime - 1)) (word (fieldPrime - 1))) s (word 0) true

/-- R57, R58: a command is legal exactly when both operands are field elements; every command, legal or not, is accepted and
completes, a legal one with a result and an illegal one with an error. -/
def Obligations.LegalCommandsAreThoseThatSucceed : Prop :=
  ∀ (i : Instr) (s : State),
    (i.wellFormed = true ↔ (i.opA.toNat < fieldPrime ∧ i.opB.toNat < fieldPrime)) ∧
    (s.block.busy = false → ∃ u, clock (Ports.present i) s = .next u ∧ u.block.command = some i ∧ u.block.busy = true) ∧
    ∃ t, exec i s = .next t ∧ (i.wellFormed = true → t.block.err = 0b00#2 ∧ t.block.result.isSome = true) ∧
      (i.wellFormed = false → t.block.err ≠ 0b00#2 ∧ t.block.result = none)

/-- R64: a result presented as an operand of a later command is never the operand that fails. -/
def Obligations.ResultsAreAcceptableOperands : Prop :=
  ∀ (i j : Instr) (s t u v : State) (r : Word), exec i s = .next t → t.block.result = some r → exec j u = .next v →
    (j.opA = r → v.block.err.getLsbD 0 = false) ∧ (j.opB = r → v.block.err.getLsbD 1 = false)

/-! ### One edge -/

/-- R67: the writes of an accepting edge, whatever the operands are. -/
def Obligations.AcceptingEdgeWritesTheLatches : Prop :=
  ∀ (p : Ports) (s : State), p.rst = false → s.block.busy = false → p.inValid = true →
    clock p s = .next { s with block :=
      { lOp := some p.inOp, lA := some p.inA, lB := some p.inB, busy := true, valid := false, err := 0b00#2
        zero := false, result := none, cnt := s.lat - 1 } }

/-- R105, R106, R107: an edge with `rst = 1` writes the reset state, whatever the other inputs and the registers are; one such
edge is enough; and while `rst = 1` the block is not ready. -/
def Obligations.ResetEdgeWritesTheResetState : Prop :=
  ∀ (p q : Ports) (s : State), p.rst = true → q.rst = true →
    ∃ t, clock p s = .next t ∧ clock q t = .next t ∧
      t = { s with block :=
        { busy := false, valid := false, err := 0b00#2, zero := false, result := none
          lOp := none, lA := none, lB := none, cnt := 0 } } ∧
      s.block.inReady p.rst = false

/-- R108: a reset edge aborts the command in flight. However many edges follow with nothing presented, no response appears and
nothing of the command is left. -/
def Obligations.ResetAbortsTheCommandInFlight : Prop :=
  ∀ (p : Ports) (ps : List Ports) (s : State), p.rst = true → (∀ q ∈ ps, q.rst = false ∧ q.inValid = false) →
    s.host = .edge p :: ps.map HostAction.edge →
    ∃ t, run (ps.length + 1) s = .next t ∧ t.block.valid = false ∧ t.block.result = none ∧ t.block.err = 0b00#2 ∧
      t.block.busy = false ∧ t.block.command = none ∧ t.observed = s.observed

/-- R69 (its waiting and idle branches), R51, R101: while a command is in flight the input ports other than `rst` are ignored;
a waiting edge only counts down; an idle edge changes nothing. -/
def Obligations.WaitingAndIdleEdgesIgnoreThePorts : Prop :=
  ∀ (p : Ports) (s : State), p.rst = false →
    (s.block.busy = true → ∀ q : Ports, q.rst = false → clock p s = clock q s) ∧
    (s.block.busy = true → s.block.cnt ≠ 0 → clock p s = .next { s with block := { s.block with cnt := s.block.cnt - 1 } }) ∧
    (s.block.busy = false → p.inValid = false → clock p s = .next s)

/-- R70: what the completing edge writes, from the latched operation and operands alone: the mask of the operands out of range, and
only when it is `00` the sum or difference reduced modulo `P` with its zero flag. -/
def Obligations.CompletingEdgeExecutesTheLatchedCommand : Prop :=
  ∀ (p : Ports) (s : State) (op : BitVec 1) (a b : Word), p.rst = false → s.block.busy = true → s.block.cnt = 0 →
    s.block.lOp = some op → s.block.lA = some a → s.block.lB = some b →
    clock p s = .next { s with block := { s.block with
      busy := false, valid := true, err := rangeMask a b
      result :=
        if rangeMask a b ≠ 0b00#2 then none
        else if op = 0#1 then some (word ((a.toNat + b.toNat) % fieldPrime))
        else some (word ((a.toNat + fieldPrime - b.toNat) % fieldPrime))
      zero :=
        if rangeMask a b ≠ 0b00#2 then false
        else if op = 0#1 then decide ((a.toNat + b.toNat) % fieldPrime = 0)
        else decide ((a.toNat + fieldPrime - b.toNat) % fieldPrime = 0) } }

/-- The command held in the latches is what a step runs at a completing edge, whichever way the host lets that edge pass: by
an edge of its own without reset, while it holds another command, while it waits, or with nothing left to do. -/
def Obligations.StepRunsTheLatchedCommand : Prop :=
  ∀ (s : State) (op : BitVec 1) (a b : Word), s.block.busy = true → s.block.cnt = 0 →
    s.block.lOp = some op → s.block.lA = some a → s.block.lB = some b →
    (s.host = [] → step s = exec (decodeFrame (joinFrame op a b)) s) ∧
    (∀ p rest, s.host = .edge p :: rest → p.rst = false →
      step s = exec (decodeFrame (joinFrame op a b)) { s with host := rest }) ∧
    (∀ j rest, s.host = .issue j :: rest → step s = exec (decodeFrame (joinFrame op a b)) s) ∧
    (∀ rest, s.host = .wait :: rest → s.block.valid = false → step s = exec (decodeFrame (joinFrame op a b)) s)

/-- A word placed where the block takes its next command from is what the very next step runs: its frame, decoded, at the
state with that command in flight. -/
def Obligations.PlacedWordRunsAtTheNextStep : Prop :=
  ∀ (s : State) (w : Nat), w < 2 ^ 513 →
    ∃ u, step (s.withFetchWord 520 w) = exec (decodeFrame (BitVec.ofNat 513 w)) u ∧
      decodeTableWord 520 w = some (decodeFrame (BitVec.ofNat 513 w)) ∧
      u.block.command = some (decodeFrame (BitVec.ofNat 513 w)) ∧ u.block.busy = true ∧ u.block.cnt = 0 ∧
      u.lat = s.lat ∧ u.host = s.host ∧ u.observed = s.observed

/-! ### Ports and the host -/

/-- R18, R22, R24, R25: the status outputs are the registers, and `in_ready` says that the block is idle and not being reset. -/
def Obligations.OutputPortsShowTheRegisters : Prop :=
  ∀ (b : Block) (rst : Bool),
    ((b.outputs rst).inReady = true ↔ (b.busy = false ∧ rst = false)) ∧
    (b.outputs rst).outBusy = b.busy ∧ (b.outputs rst).outValid = b.valid ∧ (b.outputs rst).outErr = b.err ∧
    (b.outputs rst).outZero = b.zero ∧
    (∀ (p : Ports) (s : State), s.block = b → p.rst = rst → p.inValid = true →
      ((b.outputs rst).inReady = true → ∃ t, clock p s = .next t ∧ t.block.command = some (decodeFrame p.frame)))

/-- R36: the bits of the STATUS word, and the words it can be: under the invariant these seven, each of them in some state. -/
def Obligations.StatusWordsAreTheSevenListed : Prop :=
  (∀ b : Block, b.status.getLsbD 0 = b.busy ∧ b.status.getLsbD 1 = b.valid ∧ b.status.getLsbD 2 = b.err.getLsbD 0 ∧
    b.status.getLsbD 3 = b.err.getLsbD 1 ∧ b.status.getLsbD 4 = b.zero) ∧
  (∀ s : State, s.Inv → s.block.status ∈
    [0b00000#5, 0b00001#5, 0b00010#5, 0b10010#5, 0b00110#5, 0b01010#5, 0b01110#5]) ∧
  State.reset.block.status = 0b00000#5 ∧
  (∀ w ∈ [0b00000#5, 0b00001#5, 0b00010#5, 0b10010#5, 0b00110#5, 0b01010#5, 0b01110#5],
    ∃ s : State, s.Inv ∧ s.block.status = w)

/-- R47: a read changes no register, takes no edge and leaves the rest of the host's actions; what it gives is the register's
value, however often it is repeated. -/
def Obligations.ReadsHaveNoSideEffect : Prop :=
  ∀ (s t : State) (act : HostAction) (rest : List HostAction), s.host = act :: rest →
    (act = .read ∨ act = .readStatus ∨ act = .readResult ∨ ∃ rst, act = .readReady rst) → step s = .next t →
    t.block = s.block ∧ t.lat = s.lat ∧ t.host = rest ∧
    (act = .readStatus → t.observed = s.observed ++ [.status s.block.status]) ∧
    (∀ rst, act = .readReady rst → t.observed = s.observed ++ [.ready (s.block.inReady rst)]) ∧
    (act = .readResult → ∃ v, s.block.result = some v ∧ t.observed = s.observed ++ [.result v]) ∧
    (act = .read → (s.block.err = 0b00#2 → ∃ v, s.block.result = some v ∧ t.observed = s.observed ++ [.reply (.ok v s.block.zero)]) ∧
      (s.block.err ≠ 0b00#2 → t.observed = s.observed ++ [.reply (.malformed s.block.err)]))

/-- R112: `out_res` holds a value exactly while `VALID = 1` and `ERR = 00`; a host that reads it otherwise gets no value, and the
machine stops with the host's error. -/
def Obligations.ReadingAResultTooEarlyIsAHostError : Prop :=
  ∀ (s : State) (rest : List HostAction), s.Inv → s.host = .readResult :: rest →
    ((s.block.valid = true ∧ s.block.err = 0b00#2) → ∃ v, v.toNat < fieldPrime ∧
      step s = .next { s with host := rest, observed := s.observed ++ [.result v] }) ∧
    (¬(s.block.valid = true ∧ s.block.err = 0b00#2) → step s = .fault .resultHasNoValue)

/-- R89: from a state of the invariant a step gives a next state unless the host reads a result that is not there, and then it
is that host error and nothing else. -/
def Obligations.OnlyHostErrorsStopTheMachine : Prop :=
  ∀ s : State, s.Inv →
    (s.hostKeepsDuty = true → ∃ t, step s = .next t) ∧ (s.hostKeepsDuty = false → step s = .fault .resultHasNoValue)

/-- R114: a host that issues a command holds it: it is accepted at the first edge at which the block is ready and stays on the
ports until then. -/
def Obligations.IssuedCommandIsHeldUntilAccepted : Prop :=
  ∀ (s : State) (i : Instr) (rest : List HostAction), s.host = .issue i :: rest →
    (s.block.busy = false → ∃ t, step s = .next t ∧ t.host = rest ∧ t.block.command = some i ∧ t.block.busy = true ∧
      t.block.cnt = s.lat - 1) ∧
    (∀ t, s.block.busy = true → step s = .next t → t.host = s.host ∧ t.block.command = s.block.command)

/-! ### The whole machine -/

/-- R37, R111: the state after reset and its outputs; it stays so while nothing is presented, and a command presented at the first
edge after it is accepted. -/
def Obligations.ResetStateIsIdleAndReady : Prop :=
  State.reset.block =
    { busy := false, valid := false, err := 0b00#2, zero := false, result := none
      lOp := none, lA := none, lB := none, cnt := 0 } ∧
  (State.reset.block.outputs false).inReady = true ∧ (State.reset.block.outputs false).outBusy = false ∧
  (State.reset.block.outputs false).outValid = false ∧ (State.reset.block.outputs false).outErr = 0b00#2 ∧
  (State.reset.block.outputs false).outZero = false ∧ (State.reset.block.outputs false).outRes = none ∧
  (∀ n, run n State.reset = .next State.reset) ∧
  (∀ p : Ports, p.rst = false → p.inValid = true →
    ∃ t, clock p State.reset = .next t ∧ t.block.command = some (decodeFrame p.frame) ∧ t.block.busy = true)

/-- The state after reset meets the invariant, whatever `LAT` is. -/
def Obligations.ResetMeetsTheInvariant : Prop := State.reset.Inv

/-- Every step that gives a next state keeps the invariant: the handshake flags, the response registers and the latches stay in
step, a stored result is the response of the latched command, and `CNT` stays below `LAT`. -/
def Obligations.EveryStepKeepsTheInvariant : Prop :=
  ∀ s t : State, s.Inv → step s = .next t → t.Inv

/-- What the invariant says of `RESULT`: it holds a value exactly while `VALID = 1` and `ERR = 00`, that value is a field element,
`ZERO` says whether it is 0, and `CNT` fits in its width. -/
def Obligations.InvariantBoundsTheRegisters : Prop :=
  ∀ s : State, s.Inv →
    (s.block.result.isSome = true ↔ (s.block.valid = true ∧ s.block.err = 0b00#2)) ∧
    (∀ v, s.block.result = some v → v.toNat < fieldPrime ∧ v.extractLsb' 252 4 = 0b0000#4) ∧
    (s.block.zero = true ↔ (s.block.valid = true ∧ s.block.err = 0b00#2 ∧ s.block.result = some (word 0))) ∧
    s.block.cnt < 2 ^ Config.cntWidth s.lat

/-- No step changes `LAT`, refuses, or takes back what the host has read; the host's list only moves on. -/
def Obligations.StepsKeepLatencyAndOnlyExtendTheRecord : Prop :=
  (∀ s r, step s ≠ .refused r) ∧
  ∀ s t : State, step s = .next t →
    t.lat = s.lat ∧ (t.host = s.host ∨ t.host = s.host.tail) ∧ ∃ os, t.observed = s.observed ++ os ∧ os.length ≤ 1

/-- From R27 and R28, one direction: where `BUSY` or `VALID` changes, the step was an acceptance (`BUSY` set, `VALID` cleared), a
completion (`VALID` set, `BUSY` cleared) or a reset (both cleared). That each such edge makes its change is stated in
AcceptingEdgeWritesTheLatches, CompletingEdgeExecutesTheLatchedCommand and ResetEdgeWritesTheResetState. -/
def Obligations.HandshakeFlagsMoveOnlyAtTheirEdges : Prop :=
  ∀ s t : State, s.Inv → step s = .next t →
    (s.block.busy = false → t.block.busy = true →
      t.block.valid = false ∧ t.block.command.isSome = true ∧ t.block.cnt = s.lat - 1) ∧
    (s.block.busy = true → t.block.busy = false →
      (s.block.cnt = 0 ∧ t.block.valid = true ∧ t.block.command = s.block.command) ∨ t.block = Block.resetState) ∧
    (s.block.valid = false → t.block.valid = true →
      s.block.busy = true ∧ s.block.cnt = 0 ∧ t.block.busy = false ∧
      ∃ i, s.block.command = some i ∧ exec i s = .next { s with block := t.block }) ∧
    (s.block.valid = true → t.block.valid = false →
      (s.block.busy = false ∧ t.block.busy = true) ∨ t.block = Block.resetState) ∧
    ¬(t.block.busy = true ∧ t.block.valid = true)

/-- R46: the latches are written only at an accepting edge, all three from the pins of that one edge, or cleared by a reset edge. -/
def Obligations.CommandsAreSampledWholeAtOneEdge : Prop :=
  ∀ s t : State, step s = .next t →
    (t.block.lOp = s.block.lOp ∧ t.block.lA = s.block.lA ∧ t.block.lB = s.block.lB) ∨
    (t.block.lOp = none ∧ t.block.lA = none ∧ t.block.lB = none ∧ ∃ p rest, s.host = .edge p :: rest ∧ p.rst = true) ∨
    (s.block.busy = false ∧ ∃ p rest, s.host = .edge p :: rest ∧ p.rst = false ∧ p.inValid = true ∧
      t.block.lOp = some p.inOp ∧ t.block.lA = some p.inA ∧ t.block.lB = some p.inB) ∨
    (s.block.busy = false ∧ ∃ i rest, s.host = .issue i :: rest ∧
      t.block.lOp = some (frameOp (encode i)) ∧ t.block.lA = some i.opA ∧ t.block.lB = some i.opB)

/-- R48: while a command is in flight no other is accepted: a step completes it, counts down, or resets the block. -/
def Obligations.OneCommandIsInFlightAtATime : Prop :=
  ∀ s t : State, step s = .next t → s.block.busy = true →
    (t.block.lOp = s.block.lOp ∧ t.block.lA = s.block.lA ∧ t.block.lB = s.block.lB) ∨ t.block = Block.resetState

/-- R50, R96, R113: while no command is in flight the registers stay as they are until a step that accepts a command, which clears
the old response, or that resets the block. -/
def Obligations.ResponseStaysUntilAcceptanceOrReset : Prop :=
  ∀ s t : State, step s = .next t → s.block.busy = false → t.block ≠ s.block →
    t.block = Block.resetState ∨
    (t.block.busy = true ∧ t.block.valid = false ∧ t.block.err = 0b00#2 ∧ t.block.zero = false ∧ t.block.result = none ∧
      t.block.command.isSome = true ∧ t.block.cnt = s.lat - 1)

/-- R120: once a run has ended it stays so. What the host read is only added to, the registers stay as they are unless the host
resets the block, and with no action of the host left every further step leaves the whole machine as it is. -/
def Obligations.EndedRunsStayEnded : Prop :=
  ∀ s : State, s.ended = true →
    (s.host = [] → step s = .next s ∧ ∀ n, run n s = .next s) ∧
    ∀ (n : Nat) (t : State), run n s = .next t →
      t.ended = true ∧ t.block.busy = false ∧ t.lat = s.lat ∧ (∃ os, t.observed = s.observed ++ os) ∧
      (t.block = s.block ∨ t.block = Block.resetState) ∧
      ((∀ p, HostAction.edge p ∈ s.host → p.rst = false) → t.block = s.block)

/-! ### Whole transactions -/

/-- R88, R119: a command accepted at one edge completes exactly `LAT` edges later, whatever the ports carry meanwhile (reset apart),
whatever the operation and the operands are; at every edge before, the block shows itself busy and without a response. -/
def Obligations.CommandsCompleteExactlyLatEdgesLater : Prop :=
  ∀ (s : State) (p : Ports) (ps : List Ports) (rest : List HostAction),
    1 ≤ s.lat → s.block.busy = false → p.rst = false → p.inValid = true →
    ps.length = s.lat → (∀ q ∈ ps, q.rst = false) →
    s.host = .edge p :: (ps.map HostAction.edge ++ rest) →
    (∀ k, k < s.lat → ∃ u, run (k + 1) s = .next u ∧ u.block.status = 0b00001#5 ∧ u.block.result = none ∧
      u.block.command = some (decodeFrame p.frame) ∧ u.block.cnt = s.lat - 1 - k) ∧
    ∃ t, run (s.lat + 1) s = .next t ∧ t.block.busy = false ∧ t.block.valid = true ∧
      t.block.reply = some (expectedReply (decodeFrame p.frame)) ∧ t.block.cnt = 0 ∧
      t.lat = s.lat ∧ t.host = rest ∧ t.observed = s.observed

/-- R74, and R73 but for its words on other instances (InstancesDoNotAffectEachOther): two blocks, of any latencies, with any
earlier responses, any later port traffic and reads of the status outputs at any time, that accept equal commands give equal
responses after as many edges as each one's latency. -/
def Obligations.ResponseDependsOnlyOnTheCommand : Prop :=
  ∀ (s s' : State) (p p' : Ports) (acts acts' : List HostAction),
    1 ≤ s.lat → 1 ≤ s'.lat → s.block.busy = false → s'.block.busy = false →
    p.rst = false → p'.rst = false → p.inValid = true → p'.inValid = true →
    p.inOp = p'.inOp → p.inA = p'.inA → p.inB = p'.inB →
    (∀ x ∈ acts, Quiet x) → (∀ x ∈ acts', Quiet x) → acts.countP isEdge = s.lat → acts'.countP isEdge = s'.lat →
    s.host = .edge p :: acts → s'.host = .edge p' :: acts' →
    ∃ t t', run (acts.length + 1) s = .next t ∧ run (acts'.length + 1) s' = .next t' ∧
      t.block.valid = true ∧ t'.block.valid = true ∧ t.block.responsePair = t'.block.responsePair ∧
      t.block.result = t'.block.result ∧ t.block.err = t'.block.err ∧ t.block.zero = t'.block.zero

/-- R115: a host that keeps `in_valid = 1` after acceptance issues a second command, with whatever the ports carry at the first edge
after completion, which is edge `t + LAT + 1`. -/
def Obligations.HeldValidIssuesASecondCommand : Prop :=
  ∀ (s : State) (p q : Ports) (ps : List Ports) (rest : List HostAction),
    1 ≤ s.lat → s.block.busy = false → p.rst = false → p.inValid = true →
    ps.length = s.lat → (∀ x ∈ ps, x.rst = false ∧ x.inValid = true) → q.rst = false → q.inValid = true →
    s.host = .edge p :: (ps.map HostAction.edge ++ .edge q :: rest) →
    ∃ t, run (s.lat + 2) s = .next t ∧ t.block.busy = true ∧ t.block.valid = false ∧ t.block.err = 0b00#2 ∧
      t.block.zero = false ∧ t.block.result = none ∧ t.block.command = some (decodeFrame q.frame) ∧
      t.block.cnt = s.lat - 1 ∧ t.host = rest

/-- A host that waits on the signals gets its response (from R116): from every state of the invariant, a command in flight or not,
and for every latency, issuing a command, waiting and reading gives the response the spec gives that command. The bound of
`2*LAT + 3` steps is no rule of the spec: it rests on what ISSUE and WAIT drive and on what counts as a step, which are the
model's choices (log entries 14 and 18). -/
def Obligations.WaitingOnTheSignalsGivesTheResponse : Prop :=
  ∀ (s : State) (i : Instr) (rest : List HostAction), s.Inv → s.host = .issue i :: .wait :: .read :: rest →
    ∃ n t, n ≤ 2 * s.lat + 3 ∧ run n s = .next t ∧ t.host = rest ∧
      t.observed = s.observed ++ [.reply (expectedReply i)] ∧ t.block.valid = true ∧ t.block.busy = false ∧ t.lat = s.lat

/-- R102: instances share nothing: a step of one is that of the block alone and leaves every other as it is. -/
def Obligations.InstancesDoNotAffectEachOther : Prop :=
  ∀ (sys sys' : List State) (k : Nat) (s : State), sys[k]? = some s → stepInstance k sys = .next sys' →
    sys'.length = sys.length ∧ (∀ j, j ≠ k → sys'[j]? = sys[j]?) ∧ ∃ t, step s = .next t ∧ sys'[k]? = some t

/-- R120: a run has ended exactly when `BUSY = 0` and, however far it goes on, the host presents no command (`in_valid = 0` at every
edge to come); what is observed then is the response registers and what the host has read. -/
def Obligations.RunsEndExactlyWhenNoCommandFollows : Prop :=
  ∀ s : State,
    (s.ended = true ↔ (s.block.busy = false ∧ ∀ (n : Nat) (t : State), run n s = .next t → t.presents = false)) ∧
    s.finalObservation =
      { valid := s.block.valid, err := s.block.err, zero := s.block.zero, result := s.block.result, reads := s.observed }
end

