-- ==== Sys2Proof/Laws/Frame.lean ====
section
/-! SUPPORT. The fields of a joined frame, and the frame joined from its fields. -/

namespace Sys2Proof

variable (op : BitVec 1) (a b : Word)

@[simp] theorem frameOp_joinFrame : frameOp (joinFrame op a b) = op := by
  apply BitVec.eq_of_getLsbD_eq
  intro k hk
  obtain rfl : k = 0 := by omega
  simp only [frameOp, joinFrame, BitVec.getLsbD_extractLsb', BitVec.getLsbD_cast, BitVec.getLsbD_append]
  simp

@[simp] theorem frameA_joinFrame : frameA (joinFrame op a b) = a := by
  apply BitVec.eq_of_getLsbD_eq
  intro k hk
  simp only [frameA, joinFrame, BitVec.getLsbD_extractLsb', BitVec.getLsbD_cast, BitVec.getLsbD_append]
  simp [hk]

@[simp] theorem frameB_joinFrame : frameB (joinFrame op a b) = b := by
  apply BitVec.eq_of_getLsbD_eq
  intro k hk
  simp only [frameB, joinFrame, BitVec.getLsbD_extractLsb', BitVec.getLsbD_cast, BitVec.getLsbD_append]
  simp [hk]

/-- A frame is the join of its three fields (R53). -/
theorem joinFrame_fields (w : Frame) : joinFrame (frameOp w) (frameA w) (frameB w) = w := by
  apply BitVec.eq_of_getLsbD_eq
  intro k hk
  simp only [joinFrame, frameOp, frameA, frameB, BitVec.getLsbD_cast, BitVec.getLsbD_append, BitVec.getLsbD_extractLsb']
  by_cases h1 : k < 256
  · simp [h1]
  · by_cases h2 : k < 512
    · have h3 : k - 256 < 256 := by omega
      have h4 : 256 + (k - 256) = k := by omega
      simp [h1, h3, h4]
    · obtain rfl : k = 512 := by omega
      simp

theorem hexDigits_length (n v : Nat) : (hexDigits n v).length = n := by simp [hexDigits]

/-- The low digit comes last. -/
theorem hexDigits_succ (n v : Nat) : hexDigits (n + 1) v = hexDigits n (v / 16) ++ [hexChar (v % 16)] := by
  rw [hexDigits, List.range_succ, List.map_append, List.map_singleton]
  congr 1
  · apply List.map_congr_left
    intro k hk
    have hk := List.mem_range.mp hk
    rw [Nat.div_div_eq_div_mul, ← Nat.pow_succ', show (n - 1 - k).succ = n + 1 - 1 - k by omega]
  · simp

/-- A frame made of the fields of a number is the number's low 513 bits. -/
theorem frameOfNat_eq (w : Nat) : frameOfNat w = BitVec.ofNat 513 w := by
  apply BitVec.eq_of_getLsbD_eq
  intro k hk
  simp only [frameOfNat, joinFrame, BitVec.getLsbD_cast, BitVec.getLsbD_append, BitVec.getLsbD_ofNat,
    Nat.testBit_shiftRight]
  by_cases h1 : k < 256
  · simp [h1, hk]
  · by_cases h2 : k < 512
    · have h3 : k - 256 < 256 := by omega
      have h4 : 256 + (k - 256) = k := by omega
      simp [h1, h3, h4, hk]
    · obtain rfl : k = 512 := by omega
      simp

end Sys2Proof
end

