-- ==== Sys2Proof/Laws/State.lean ====
section
/-! SUPPORT. One lemma per field and update of the block and of the machine, each true by `rfl`. -/

namespace Sys2Proof.Machine

section Block
variable (b : Block) (lat : Nat) (p : Ports) (r : Response)

@[simp] theorem accept_busy : (b.accept lat p).busy = true := rfl
@[simp] theorem accept_valid : (b.accept lat p).valid = false := rfl
@[simp] theorem accept_err : (b.accept lat p).err = 0#2 := rfl
@[simp] theorem accept_zero : (b.accept lat p).zero = false := rfl
@[simp] theorem accept_result : (b.accept lat p).result = none := rfl
@[simp] theorem accept_lOp : (b.accept lat p).lOp = some p.inOp := rfl
@[simp] theorem accept_lA : (b.accept lat p).lA = some p.inA := rfl
@[simp] theorem accept_lB : (b.accept lat p).lB = some p.inB := rfl
@[simp] theorem accept_cnt : (b.accept lat p).cnt = lat - 1 := rfl
@[simp] theorem accept_frame : (b.accept lat p).frame = some p.frame := rfl
@[simp] theorem accept_command : (b.accept lat p).command = some (decodeFrame p.frame) := rfl

@[simp] theorem complete_busy : (b.complete r).busy = false := rfl
@[simp] theorem complete_valid : (b.complete r).valid = true := rfl
@[simp] theorem complete_err : (b.complete r).err = r.err := rfl
@[simp] theorem complete_zero : (b.complete r).zero = r.zero := rfl
@[simp] theorem complete_result : (b.complete r).result = r.result := rfl
@[simp] theorem complete_lOp : (b.complete r).lOp = b.lOp := rfl
@[simp] theorem complete_lA : (b.complete r).lA = b.lA := rfl
@[simp] theorem complete_lB : (b.complete r).lB = b.lB := rfl
@[simp] theorem complete_cnt : (b.complete r).cnt = b.cnt := rfl
@[simp] theorem complete_command : (b.complete r).command = b.command := rfl

@[simp] theorem countDown_busy : b.countDown.busy = b.busy := rfl
@[simp] theorem countDown_valid : b.countDown.valid = b.valid := rfl
@[simp] theorem countDown_err : b.countDown.err = b.err := rfl
@[simp] theorem countDown_zero : b.countDown.zero = b.zero := rfl
@[simp] theorem countDown_result : b.countDown.result = b.result := rfl
@[simp] theorem countDown_lOp : b.countDown.lOp = b.lOp := rfl
@[simp] theorem countDown_lA : b.countDown.lA = b.lA := rfl
@[simp] theorem countDown_lB : b.countDown.lB = b.lB := rfl
@[simp] theorem countDown_cnt : b.countDown.cnt = b.cnt - 1 := rfl
@[simp] theorem countDown_command : b.countDown.command = b.command := rfl

@[simp] theorem resetState_busy : Block.resetState.busy = false := rfl
@[simp] theorem resetState_valid : Block.resetState.valid = false := rfl
@[simp] theorem resetState_err : Block.resetState.err = 0#2 := rfl
@[simp] theorem resetState_zero : Block.resetState.zero = false := rfl
@[simp] theorem resetState_result : Block.resetState.result = none := rfl
@[simp] theorem resetState_lOp : Block.resetState.lOp = none := rfl
@[simp] theorem resetState_lA : Block.resetState.lA = none := rfl
@[simp] theorem resetState_lB : Block.resetState.lB = none := rfl
@[simp] theorem resetState_cnt : Block.resetState.cnt = 0 := rfl
@[simp] theorem resetState_command : Block.resetState.command = none := rfl

end Block

section State
variable (s : State) (r : Response) (o : Observation)

@[simp] theorem State.complete_block : (s.complete r).block = s.block.complete r := rfl
@[simp] theorem State.complete_lat : (s.complete r).lat = s.lat := rfl
@[simp] theorem State.complete_host : (s.complete r).host = s.host := rfl
@[simp] theorem State.complete_observed : (s.complete r).observed = s.observed := rfl

@[simp] theorem State.observe_block : (s.observe o).block = s.block := rfl
@[simp] theorem State.observe_lat : (s.observe o).lat = s.lat := rfl
@[simp] theorem State.observe_host : (s.observe o).host = s.host := rfl
@[simp] theorem State.observe_observed : (s.observe o).observed = s.observed ++ [o] := rfl

end State

section Pins
variable (i : Instr)

@[simp] theorem Ports.present_rst : (Ports.present i).rst = false := rfl
@[simp] theorem Ports.present_inValid : (Ports.present i).inValid = true := rfl
@[simp] theorem Ports.idle_rst : Ports.idle.rst = false := rfl
@[simp] theorem Ports.idle_inValid : Ports.idle.inValid = false := rfl
@[simp] theorem Ports.reset_rst : Ports.reset.rst = true := rfl

end Pins

end Sys2Proof.Machine
end

