-- ==== Sys2Proof/Laws/Ops.lean ====
section
/-! SUPPORT. What each shared operation can do, said once: the pins of a presented command, the kind of an edge, one clock
edge, the check common to both commands, and one step. -/

namespace Sys2Proof.Machine

/-! ### Pins and latches -/

@[simp] theorem Ports.present_frame (i : Instr) : (Ports.present i).frame = encode i := by
  simp [Ports.frame, Ports.present, joinFrame_fields]

/-- The latches hold a command exactly when all three hold a value. -/
theorem Block.command_isSome (b : Block) :
    b.command.isSome = (b.lOp.isSome && b.lA.isSome && b.lB.isSome) := by
  unfold Block.command Block.frame
  cases b.lOp <;> cases b.lA <;> cases b.lB <;> rfl

/-! ### The kind of an edge -/

variable {b : Block} {p : Ports}

theorem edgeKind_reset (h : p.rst = true) : edgeKind b p = .reset := by simp [edgeKind, h]

theorem edgeKind_accept (hr : p.rst = false) (hb : b.busy = false) (hv : p.inValid = true) :
    edgeKind b p = .accept := by simp [edgeKind, hr, hb, hv]

theorem edgeKind_complete (hr : p.rst = false) (hb : b.busy = true) (hc : b.cnt = 0) :
    edgeKind b p = .complete := by simp [edgeKind, hr, hb, hc]

theorem edgeKind_wait (hr : p.rst = false) (hb : b.busy = true) (hc : b.cnt ≠ 0) :
    edgeKind b p = .wait := by simp [edgeKind, hr, hb, hc]

theorem edgeKind_idle (hr : p.rst = false) (hb : b.busy = false) (hv : p.inValid = false) :
    edgeKind b p = .idle := by simp [edgeKind, hr, hb, hv]

/-! ### One edge -/

/-- A command at its completing edge: it answers a next state, in which only the response registers are written. -/
theorem exec_eq (i : Instr) (s : State) : exec i s = .next (s.complete (execute i)) := by
  cases i <;> rfl

section Branches
variable {s : State}

theorem clock_reset (h : p.rst = true) : clock p s = .next { s with block := Block.resetState } := by
  simp only [clock, edgeKind_reset h]

theorem clock_accept (hr : p.rst = false) (hb : s.block.busy = false) (hv : p.inValid = true) :
    clock p s = .next { s with block := s.block.accept s.lat p } := by
  simp only [clock, edgeKind_accept hr hb hv]

theorem clock_complete {i : Instr} (hr : p.rst = false) (hb : s.block.busy = true) (hc : s.block.cnt = 0)
    (hi : s.block.command = some i) : clock p s = exec i s := by
  simp only [clock, edgeKind_complete hr hb hc, hi]

theorem clock_complete_none (hr : p.rst = false) (hb : s.block.busy = true) (hc : s.block.cnt = 0)
    (hi : s.block.command = none) : clock p s = .fault .noCommandLatched := by
  simp only [clock, edgeKind_complete hr hb hc, hi]

theorem clock_wait (hr : p.rst = false) (hb : s.block.busy = true) (hc : s.block.cnt ≠ 0) :
    clock p s = .next { s with block := s.block.countDown } := by
  simp only [clock, edgeKind_wait hr hb hc]

theorem clock_idle (hr : p.rst = false) (hb : s.block.busy = false) (hv : p.inValid = false) :
    clock p s = .next s := by
  simp only [clock, edgeKind_idle hr hb hv]

end Branches

/-- All that one edge can do when it answers a next state. -/
theorem clock_cases {s t : State} (h : clock p s = .next t) :
    (p.rst = true ∧ t = { s with block := Block.resetState }) ∨
    (p.rst = false ∧ s.block.busy = false ∧ p.inValid = true ∧ t = { s with block := s.block.accept s.lat p }) ∨
    (p.rst = false ∧ s.block.busy = true ∧ s.block.cnt = 0 ∧ ∃ i, s.block.command = some i ∧ t = s.complete (execute i)) ∨
    (p.rst = false ∧ s.block.busy = true ∧ s.block.cnt ≠ 0 ∧ t = { s with block := s.block.countDown }) ∨
    (p.rst = false ∧ s.block.busy = false ∧ p.inValid = false ∧ t = s) := by
  cases hr : p.rst with
  | true =>
    rw [clock_reset hr] at h
    exact .inl ⟨rfl, (Host.Outcome.next.inj h).symm⟩
  | false =>
    cases hb : s.block.busy with
    | false =>
      cases hv : p.inValid with
      | true =>
        rw [clock_accept hr hb hv] at h
        exact .inr (.inl ⟨rfl, rfl, rfl, (Host.Outcome.next.inj h).symm⟩)
      | false =>
        rw [clock_idle hr hb hv] at h
        exact .inr (.inr (.inr (.inr ⟨rfl, rfl, rfl, (Host.Outcome.next.inj h).symm⟩)))
    | true =>
      by_cases hc : s.block.cnt = 0
      · cases hi : s.block.command with
        | none => rw [clock_complete_none hr hb hc hi] at h; cases h
        | some i =>
          rw [clock_complete hr hb hc hi, exec_eq] at h
          exact .inr (.inr (.inl ⟨rfl, rfl, hc, i, rfl, (Host.Outcome.next.inj h).symm⟩))
      · rw [clock_wait hr hb hc] at h
        exact .inr (.inr (.inr (.inl ⟨rfl, rfl, hc, (Host.Outcome.next.inj h).symm⟩)))

/-- An edge gives no next state only where the latches hold no command at a completing edge. -/
theorem clock_next_of {s : State} (h : s.block.busy = true → s.block.command.isSome = true) :
    ∃ t, clock p s = .next t := by
  cases hr : p.rst with
  | true => exact ⟨_, clock_reset hr⟩
  | false =>
    cases hb : s.block.busy with
    | false =>
      cases hv : p.inValid with
      | true => exact ⟨_, clock_accept hr hb hv⟩
      | false => exact ⟨_, clock_idle hr hb hv⟩
    | true =>
      by_cases hc : s.block.cnt = 0
      · obtain ⟨i, hi⟩ := Option.isSome_iff_exists.mp (h hb)
        exact ⟨_, (clock_complete hr hb hc hi).trans (exec_eq i s)⟩
      · exact ⟨_, clock_wait hr hb hc⟩

/-! ### The check common to both commands -/

theorem errMask_eq_zero {a b : Word} (ha : val a < Config.fieldPrime) (hb : val b < Config.fieldPrime) :
    errMask a b = 0#2 := by
  have ha' : outOfRange a = false := by simpa [outOfRange] using ha
  have hb' : outOfRange b = false := by simpa [outOfRange] using hb
  simp [errMask, ha', hb']

theorem errMask_ne_zero {a b : Word} (h : Config.fieldPrime ≤ val a ∨ Config.fieldPrime ≤ val b) :
    errMask a b ≠ 0#2 := by
  unfold errMask
  rcases h with h | h
  · have : outOfRange a = true := by simpa [outOfRange] using h
    rw [this]; cases outOfRange b <;> decide
  · have : outOfRange b = true := by simpa [outOfRange] using h
    rw [this]; cases outOfRange a <;> decide

theorem checked_of_inRange {f : Nat → Nat → Nat} {a b : Word} (ha : val a < Config.fieldPrime)
    (hb : val b < Config.fieldPrime) : checked f a b = success (f (val a) (val b)) := by
  simp [checked, errMask_eq_zero ha hb]

theorem checked_of_outOfRange {f : Nat → Nat → Nat} {a b : Word}
    (h : Config.fieldPrime ≤ val a ∨ Config.fieldPrime ≤ val b) :
    checked f a b = malformedInput (errMask a b) := by
  simp [checked, errMask_ne_zero h]

/-! ### One step -/

theorem step_nil {s : State} (h : s.host = []) : step s = clock Ports.idle s := by simp [step, h]

theorem step_cons {s : State} {act : HostAction} {rest : List HostAction} (h : s.host = act :: rest) :
    step s = perform act rest s := by simp [step, h]

/-- All that a step can do when it answers a next state: one edge, possibly with the host's list moved on, or one read, which
changes the host's list and record only. -/
theorem step_cases {s t : State} (h : step s = .next t) :
    (∃ p l, (l = s.host ∨ l = s.host.tail) ∧ clock p { s with host := l } = .next t) ∨
    (t.block = s.block ∧ t.lat = s.lat ∧ t.host = s.host.tail ∧
      (t.observed = s.observed ∨ ∃ o, t.observed = s.observed ++ [o])) := by
  cases hh : s.host with
  | nil =>
    rw [step_nil hh] at h
    exact .inl ⟨_, s.host, .inl hh, h⟩
  | cons act rest =>
    rw [step_cons hh] at h
    cases act with
    | edge p => exact .inl ⟨p, rest, .inr rfl, h⟩
    | issue i =>
      refine .inl ⟨Ports.present i, _, ?_, h⟩
      split
      · exact .inr rfl
      · exact .inl rfl
    | wait =>
      simp only [perform] at h
      split at h
      · cases Host.Outcome.next.inj h
        exact .inr ⟨rfl, rfl, rfl, .inl rfl⟩
      · exact .inl ⟨_, _, .inl rfl, h⟩
    | read =>
      simp only [perform, readReply] at h
      split at h
      · cases Host.Outcome.next.inj h
        exact .inr ⟨rfl, rfl, rfl, .inr ⟨_, rfl⟩⟩
      · cases h
    | readStatus =>
      cases Host.Outcome.next.inj h
      exact .inr ⟨rfl, rfl, rfl, .inr ⟨_, rfl⟩⟩
    | readResult =>
      simp only [perform, readResult] at h
      split at h
      · cases Host.Outcome.next.inj h
        exact .inr ⟨rfl, rfl, rfl, .inr ⟨_, rfl⟩⟩
      · cases h
    | readReady rst =>
      cases Host.Outcome.next.inj h
      exact .inr ⟨rfl, rfl, rfl, .inr ⟨_, rfl⟩⟩

end Sys2Proof.Machine
end

