-- ==== Sys2Proof/Laws/Run.lean ====
section
/-! SUPPORT. Runs of several steps, put together from their steps. -/

namespace Sys2Proof.Machine

@[simp] theorem run_zero (s : State) : run 0 s = .next s := rfl

/-- The step function of the core is the machine's. -/
theorem run_succ_eq (n : Nat) (s : State) :
    run (n + 1) s = match step s with
      | .next t => run n t
      | .fault r => .fault r
      | .refused r => .refused r := by
  cases h : step s <;>
    exact (Host.Core.run.eq_2 Sys2Proof.core s n).trans (by rw [show Sys2Proof.core.step s = _ from h]; rfl)

theorem run_succ {n : Nat} {s t : State} (h : step s = .next t) : run (n + 1) s = run n t := by
  rw [run_succ_eq, h]

theorem run_add {m : Nat} (n : Nat) {s t : State} (h : run m s = .next t) : run (m + n) s = run n t := by
  induction m generalizing s with
  | zero => cases Host.Outcome.next.inj h; rw [Nat.zero_add]
  | succ m ih =>
    cases hs : step s with
    | next u =>
      rw [run_succ hs] at h
      rw [Nat.add_right_comm, run_succ hs, ih h]
    | fault r => rw [run_succ_eq, hs] at h; cases h
    | refused r => rw [run_succ_eq, hs] at h; cases h

end Sys2Proof.Machine
end

