-- ==== Sys2Proof/Laws/EndOfRun.lean ====
section
/-! SUPPORT. The end of a run (R120): what a host that presents no further command can still do. -/

namespace Sys2Proof.Machine

section Host
variable (b : Block) (p : Ports) (rest : List HostAction)

@[simp] theorem noCommandFollows_nil : b.noCommandFollows [] = true := rfl
@[simp] theorem noCommandFollows_edge :
    b.noCommandFollows (.edge p :: rest) =
      (!p.inValid && (if p.rst then Block.resetState else b).noCommandFollows rest) := rfl
@[simp] theorem noCommandFollows_issue (i : Instr) : b.noCommandFollows (.issue i :: rest) = false := rfl
@[simp] theorem noCommandFollows_wait :
    b.noCommandFollows (.wait :: rest) = if b.valid then b.noCommandFollows rest else true := rfl
@[simp] theorem noCommandFollows_read :
    b.noCommandFollows (.read :: rest) = if b.reply.isSome then b.noCommandFollows rest else true := rfl
@[simp] theorem noCommandFollows_readResult :
    b.noCommandFollows (.readResult :: rest) = if b.result.isSome then b.noCommandFollows rest else true := rfl
@[simp] theorem noCommandFollows_readStatus :
    b.noCommandFollows (.readStatus :: rest) = b.noCommandFollows rest := rfl
@[simp] theorem noCommandFollows_readReady (r : Bool) :
    b.noCommandFollows (.readReady r :: rest) = b.noCommandFollows rest := rfl

end Host

theorem ended_iff {s : State} :
    s.ended = true ↔ s.block.busy = false ∧ s.block.noCommandFollows s.host = true := by
  simp [State.ended]

/-- An edge with `BUSY = 0` and `in_valid = 0`: the reset state or no change. -/
theorem clock_silent {p : Ports} {s : State} (hb : s.block.busy = false) (hv : p.inValid = false) :
    clock p s = .next { s with block := if p.rst then Block.resetState else s.block } := by
  cases hr : p.rst with
  | true => exact clock_reset hr
  | false => exact clock_idle hr hb hv

/-- A run that has ended presents no command at its next edge. -/
theorem presents_of_ended {s : State} (h : s.ended = true) : s.presents = false := by
  have h := (ended_iff.mp h).2
  unfold State.presents
  split <;> simp_all

/-- All that a step can do once the run has ended: it stays ended, and the registers stay or are reset by the host. -/
theorem step_of_ended {s t : State} (h : s.ended = true) (hs : step s = .next t) :
    t.ended = true ∧
    (t.block = s.block ∨ (t.block = Block.resetState ∧ ∃ p, HostAction.edge p ∈ s.host ∧ p.rst = true)) := by
  obtain ⟨hb, hf⟩ := ended_iff.mp h
  rw [ended_iff]
  cases hh : s.host with
  | nil =>
    rw [step_nil hh, clock_idle rfl hb rfl] at hs
    cases Host.Outcome.next.inj hs
    exact ⟨⟨hb, hf⟩, .inl rfl⟩
  | cons act rest =>
    rw [hh] at hf
    rw [step_cons hh] at hs
    cases act with
    | edge p =>
      simp only [noCommandFollows_edge, Bool.and_eq_true, Bool.not_eq_true'] at hf
      rw [perform, clock_silent (s := { s with host := rest }) hb hf.1] at hs
      cases Host.Outcome.next.inj hs
      refine ⟨⟨?_, hf.2⟩, ?_⟩ <;> cases hr : p.rst <;> simp_all
    | issue i => cases hf
    | wait =>
      simp only [perform] at hs
      split at hs
      · next hv =>
        cases Host.Outcome.next.inj hs
        exact ⟨⟨hb, by simpa [hv] using hf⟩, .inl rfl⟩
      · next hv =>
        rw [clock_idle (s := { s with host := .wait :: rest }) rfl hb rfl] at hs
        cases Host.Outcome.next.inj hs
        exact ⟨⟨hb, by simp [hv]⟩, .inl rfl⟩
    | read =>
      simp only [perform, readReply] at hs
      split at hs
      · next hr =>
        cases Host.Outcome.next.inj hs
        exact ⟨⟨hb, by simpa [hr] using hf⟩, .inl rfl⟩
      · cases hs
    | readStatus =>
      cases Host.Outcome.next.inj hs
      exact ⟨⟨hb, hf⟩, .inl rfl⟩
    | readResult =>
      simp only [perform, readResult] at hs
      split at hs
      · next hr =>
        cases Host.Outcome.next.inj hs
        exact ⟨⟨hb, by simpa [hr] using hf⟩, .inl rfl⟩
      · cases hs
    | readReady r =>
      cases Host.Outcome.next.inj hs
      exact ⟨⟨hb, hf⟩, .inl rfl⟩

/-- A run that has ended stays so. -/
theorem run_of_ended {n : Nat} {s t : State} (h : s.ended = true) (hs : run n s = .next t) : t.ended = true := by
  induction n generalizing s with
  | zero => cases Host.Outcome.next.inj hs; exact h
  | succ n ih =>
    cases hu : step s with
    | next u => rw [run_succ hu] at hs; exact ih (step_of_ended h hu).1 hs
    | fault r => rw [run_succ_eq, hu] at hs; cases hs
    | refused r => rw [run_succ_eq, hu] at hs; cases hs

end Sys2Proof.Machine
end

