-- ==== Sys2Proof/Laws/PerInstr.lean ====
section
/-! SUPPORT. Statements made once per instruction, about the instruction as syntax. -/

namespace Sys2Proof.Laws.OpcodeRow

/-- A command's frame matches its own row of the opcode table under the row's mask (R54). -/
def Statement (i : Instr) : Prop := encode i &&& opcodeMask = opcodeMatch i

/-- Masking a joined frame with `1 << 512` keeps its `op` bit and nothing else. -/
theorem mask_joinFrame (op : BitVec 1) (a b : Word) :
    joinFrame op a b &&& opcodeMask = if op = 0#1 then 0#513 else BitVec.twoPow 513 512 := by
  have hop : op = 0#1 ∨ op = 1#1 := by
    have := op.isLt
    rcases (show op.toNat = 0 ∨ op.toNat = 1 by omega) with h | h
    · exact .inl (BitVec.eq_of_toNat_eq h)
    · exact .inr (BitVec.eq_of_toNat_eq h)
  apply BitVec.eq_of_getLsbD_eq
  intro k hk
  simp only [joinFrame, opcodeMask, BitVec.getLsbD_and, BitVec.getLsbD_cast, BitVec.getLsbD_append, BitVec.getLsbD_twoPow]
  by_cases h : k < 512
  · have h' : ¬512 = k := by omega
    rcases hop with rfl | rfl <;> simp [h', BitVec.getLsbD_twoPow]
  · obtain rfl : k = 512 := by omega
    rcases hop with rfl | rfl <;> simp

theorem add (a b : Word) : Statement (.add a b) := by
  simp [Statement, encode, opcodeMatch, mask_joinFrame]

theorem sub (a b : Word) : Statement (.sub a b) := by
  simp [Statement, encode, opcodeMatch, mask_joinFrame]

end Sys2Proof.Laws.OpcodeRow
end

