-- ==== Sys2Proof/Tests/Slice0.lean ====
section
/-! SUPPORT. The model's own tests. Expected values are those of 95_test_vectors.md (the row is named at each test) or are
worked out by hand from the rule named. Then one witness for every statement that has hypotheses. -/

open Sys2Proof Sys2Proof.Machine Sys2Proof.Claims
open Sys2Proof.Config (fieldPrime)

namespace Sys2Proof.Tests

/-! ### Helpers -/

/-- A block that has just been reset, of latency `lat`, with these host actions to come. -/
def idle (lat : Nat) (host : List HostAction) : State :=
  { block := Block.resetState, lat := lat, host := host, observed := [] }

/-- A block with the command `i` in flight and `cnt` edges to wait before its completing edge. -/
def inFlight (lat cnt : Nat) (i : Instr) (host : List HostAction) : State :=
  { idle lat host with block := { Block.resetState.accept lat (Ports.present i) with cnt := cnt } }

/-- A block that shows the response of the command `i`. -/
def answered (lat : Nat) (i : Instr) (host : List HostAction) : State :=
  { idle lat host with block := (Block.resetState.accept lat (Ports.present i)).complete (execute i) |>.countDown }

/-- What a test looks at: the block after a step, if there is a next state. -/
def blockAfter : Host.Outcome State Fault Refusal → Option Block
  | .next t => some t.block
  | _ => none

/-- The fault of a step, if it ends in one. -/
def faultOf : Host.Outcome State Fault Refusal → Option Fault
  | .fault r => some r
  | _ => none

/-! ### Well-formedness: each check refuses an ill-formed command -/

theorem test_wellFormed_refuses_a_equal_P : (Instr.add (word fieldPrime) (word 0)).wellFormed = false := by decide
theorem test_wellFormed_refuses_b_equal_P : (Instr.sub (word 1) (word fieldPrime)).wellFormed = false := by decide
theorem test_wellFormed_takes_P_minus_1 :
    (Instr.sub (word (fieldPrime - 1)) (word (fieldPrime - 1))).wellFormed = true := by decide

/-! ### Decoding: frames written out digit by digit from R53, R54 and R65 (95_test_vectors.md sections 5 and 7) -/

/-- P5's `SUB 0x5, 0x7`: digit `1`, then 64 digits, then 64 digits. -/
theorem test_decode_sub : decodeTableWord 520
    0x100000000000000000000000000000000000000000000000000000000000000050000000000000000000000000000000000000000000000000000000000000007 =
    some (.sub 5#256 7#256) := by decide
/-- P5's `ADD 0x5, 0x7`. -/
theorem test_decode_add : decodeTableWord 520
    0x000000000000000000000000000000000000000000000000000000000000000050000000000000000000000000000000000000000000000000000000000000007 =
    some (.add 5#256 7#256) := by decide
/-- Section 5: the frame of 513 ones is `SUB` of two operands of 256 ones. -/
theorem test_decode_all_ones : decodeTableWord 520
    0x1ffffffffffffffffffffffffffffffffffffffffffffffffffffffffffffffffffffffffffffffffffffffffffffffffffffffffffffffffffffffffffffffff =
    some (.sub (BitVec.allOnes 256) (BitVec.allOnes 256)) := by decide
/-- Section 5: the all-zero frame is `ADD 0x0, 0x0`. -/
theorem test_decode_zero : decodeTableWord 520 0 = some (.add 0#256 0#256) := by decide
/-- R60: 513 bits, no more. -/
theorem test_decode_refuses_bit_513 : decodeNat
    0x200000000000000000000000000000000000000000000000000000000000000000000000000000000000000000000000000000000000000000000000000000000 =
    .error .bitAboveFrame := by rfl
theorem test_decodeHex_refuses_no_mark : decodeHex ['1'] = .error .noHexMark := by rfl
theorem test_decodeHex_refuses_length : decodeHex ['0', 'x', '1'] = .error .wrongLength := by rfl
theorem test_decodeHex_refuses_digit : decodeHex ('0' :: 'x' :: 'g' :: List.replicate 128 '0') = .error .notHexDigit := by
  decide +kernel
theorem test_decodeHex_refuses_op_digit : decodeHex ('0' :: 'x' :: '2' :: List.replicate 128 '0') = .error .badOpDigit := by
  decide +kernel

/-! ### The two commands, at most two tests each -/

/-- V4: `(P-1) + (P-1) = P-2`. -/
theorem test_add_largest_sum :
    (blockAfter (exec (.add (word (fieldPrime - 1)) (word (fieldPrime - 1))) (idle 1 []))).map Block.reply =
    some (some (.ok 0x800000000000010ffffffffffffffffffffffffffffffffffffffffffffffff#256 false)) := by decide
/-- V14: `a` legal, `b = P` gives `MALFORMED(10)`. -/
theorem test_add_malformed_b :
    (blockAfter (exec (.add (word (fieldPrime - 1)) (word fieldPrime)) (idle 1 []))).map Block.reply =
    some (some (.malformed 0b10#2)) := by decide
/-- V110: `y - x` of the two hash inputs, a borrow. -/
theorem test_sub_borrow :
    (blockAfter (exec (.sub 0x208a0a10250e382e1e4bbe2880906c2791bf6275695e02fbbc6aeff9cd8b31a#256
      0x3d937c035c878245caf64531a5756109c53068da139362728feb561405371cb#256) (idle 1 []))).map Block.reply =
    some (some (.ok 0x62f68e0cc886b6f8535578f6db1b0b1dcc8ef99b55caa0892c7f99e5c854150#256 false)) := by decide
/-- V206: `EQ 7, 7` gives `STATUS = 10010`. -/
theorem test_sub_equal_status :
    (blockAfter (exec (Pseudo.eq 7#256 7#256).expand (idle 1 []))).map Block.status = some 0b10010#5 := by decide

/-! ### One step of each kind -/

/-- T2, edge 1: acceptance at `LAT = 3` leaves `CNT = 2` and `STATUS = 00001`. -/
theorem test_step_accepts :
    (blockAfter (step (idle 3 [.issue (.add (word fieldPrime) 0#256)]))).map (fun b => (b.cnt, b.status, b.result)) =
    some (2, 0b00001#5, none) := by decide
/-- T2, edge 2: waiting, with another command held on the ports. -/
theorem test_step_waits :
    (blockAfter (step (inFlight 3 2 (.add (word fieldPrime) 0#256) [.issue (.sub 9#256 9#256)]))).map
      (fun b => (b.cnt, b.busy, b.lB)) = some (1, true, some 0#256) := by decide
/-- T2, edge 4: `ADD P, 0x0` completes with `ERR = 01`; V205's `STATUS` is `00110`. -/
theorem test_step_completes :
    (blockAfter (step (inFlight 3 0 (.add (word fieldPrime) 0#256) [.issue (.sub 9#256 9#256)]))).map Block.status =
    some 0b00110#5 := by decide
/-- P5, edge 3: a reset edge aborts the command in flight. -/
theorem test_step_resets :
    blockAfter (step (inFlight 3 1 (.sub 5#256 7#256) [HostAction.reset])) = some Block.resetState := by decide
/-- R112: reading before there is a result. -/
theorem test_read_too_early : faultOf (step (idle 1 [.read])) = some .resultHasNoValue := by decide
/-- R112: a failed command has no result to read. -/
theorem test_read_result_after_error :
    faultOf (step (answered 1 (.add (word fieldPrime) 0#256) [.readResult])) = some .resultHasNoValue := by decide

/-! ### The assembler (R61, R62) -/

theorem test_assemble_command :
    assembleLine ['A', 'D', 'D', ' ', '0', 'x', 'f', 'F', ',', ' ', '1', '0'] = some (.issue (.add 255#256 10#256)) := by
  decide
theorem test_assemble_pseudo : assemble ['n', 'e', 'g', ' ', '5'] = some (encode (.sub 0#256 5#256)) := by decide
theorem test_assemble_host_action : assembleLine ['W', 'A', 'I', 'T'] = some .wait := by decide
theorem test_assemble_refuses : assembleLine ['A', 'd', 'd', ' ', '1', ',', '2'] = none := by decide

/-! ### Witnesses: the hypotheses of each statement can be met -/

theorem witness_FieldPrimeIsTheLiteralOfWidth252 : fieldPrime - 1 < fieldPrime ∧ 0 < fieldPrime := by decide

theorem witness_DecoderRefusesExactlyNonFrames :
    (∃ n, 2 ^ 513 ≤ n) ∧ ∃ n, n < 2 ^ 513 := ⟨⟨_, Nat.le_refl _⟩, 2 ^ 513 - 1, Nat.sub_lt (Nat.two_pow_pos _) Nat.one_pos⟩

theorem witness_SerialisationIsBigEndian :
    (31 < 32 ∧ 7 < 8) ∧ (List.replicate 32 (0xff#8 : Byte)).length = 32 := by decide

theorem witness_LiteralsDenote256BitValues :
    (digitsValue 16 hexDigit 0 ['f'] = some 15 ∧ 1 ≤ ['f'].length ∧ ['f'].length ≤ 64) ∧
    ([] : List Char).length = 0 ∧ 64 < (List.replicate 65 '0').length ∧
    (digitsValue 10 decDigit 0 ['9'] = some 9 ∧ 1 ≤ ['9'].length) := by decide

/-- The two sides of every range hypothesis at its boundary. -/
theorem witness_operands_in_and_out_of_range :
    ((word (fieldPrime - 1)).toNat < fieldPrime ∧ (word 0).toNat < fieldPrime) ∧
    fieldPrime ≤ (word fieldPrime).toNat ∧ fieldPrime ≤ (BitVec.allOnes 256).toNat := by decide

theorem witness_TopBitsPutAnOperandOutOfRange :
    (0x1000000000000000000000000000000000000000000000000000000000000000#256 : Word).extractLsb' 252 4 ≠ 0b0000#4 ∧
    (word fieldPrime).extractLsb' 252 4 = 0b0000#4 ∧ (word (fieldPrime - 1)).extractLsb' 252 4 = 0b0000#4 := by decide

/-- For R62: `NEG 1`, `DBL (P-1)`, `TST (P-1)`, `TST P`, `EQ 0, P-1`. -/
theorem witness_PseudoInstructionsRespondAsTabulated :
    (word 1).toNat < fieldPrime ∧ (word (fieldPrime - 1)).toNat < fieldPrime ∧ fieldPrime ≤ (word fieldPrime).toNat := by
  decide

theorem witness_AddCompletesWithTheFieldSum :
    (∃ p : Ports, p.inOp = 0#1 ∧ p.inA = word 1 ∧ p.inB = word 2) ∧
    ((word (fieldPrime - 1)).toNat < fieldPrime ∧ (word 1).toNat < fieldPrime) ∧ fieldPrime ≤ (word fieldPrime).toNat :=
  ⟨⟨Ports.present (.add (word 1) (word 2)), by decide⟩, by decide⟩

theorem witness_SubCompletesWithTheFieldDifference :
    (∃ p : Ports, p.inOp = 1#1 ∧ p.inA = word 1 ∧ p.inB = word 2) ∧
    ((word 0).toNat < fieldPrime ∧ (word (fieldPrime - 1)).toNat < fieldPrime) ∧ fieldPrime ≤ (word fieldPrime).toNat :=
  ⟨⟨Ports.present (.sub (word 1) (word 2)), by decide⟩, by decide⟩

theorem witness_MalformedCommandsFailWithNoResult :
    fieldPrime ≤ (Instr.sub (word 1) (word fieldPrime)).opB.toNat ∧
    fieldPrime ≤ (Instr.add (word fieldPrime) (word 1)).opA.toNat := by decide

/-- For ResultsAreCanonicalResidues, ZeroFlagTestsTheResult, AdditionLawsHold, AddDatapathGivesAddMod and SubDatapathGivesSubMod:
operands in range, one of them the largest. -/
theorem witness_operands_in_range :
    (Instr.add (word (fieldPrime - 1)) (word 1)).opA.toNat < fieldPrime ∧
    (Instr.sub (word 0) (word (fieldPrime - 1))).opB.toNat < fieldPrime ∧ (word 0).toNat < fieldPrime := by decide

theorem witness_SubtractionLawsHold : 0 < fieldPrime ∧ fieldPrime - 1 < fieldPrime ∧ 0 ≠ fieldPrime - 1 := by decide

theorem witness_LegalCommandsAreThoseThatSucceed :
    (idle 1 []).block.busy = false ∧ (Instr.add (word 1) (word 2)).wellFormed = true ∧
    (Instr.add (word fieldPrime) (word 2)).wellFormed = false := by decide

theorem witness_ResultsAreAcceptableOperands :
    ∃ t v r, exec (.add (word 1) (word 2)) (idle 1 []) = .next t ∧ t.block.result = some r ∧
      exec (.sub r r) (idle 1 []) = .next v ∧ (Instr.sub r r).opA = r ∧ (Instr.sub r r).opB = r :=
  ⟨_, _, word 3, rfl, by decide, rfl, rfl, rfl⟩

theorem witness_AcceptingEdgeWritesTheLatches :
    (Ports.present (.add (word 1) (word 2))).rst = false ∧ (idle 1 []).block.busy = false ∧
    (Ports.present (.add (word 1) (word 2))).inValid = true := by decide

theorem witness_ResetEdgeWritesTheResetState : Ports.reset.rst = true := by decide

theorem witness_ResetAbortsTheCommandInFlight :
    Ports.reset.rst = true ∧ (∀ q ∈ [Ports.idle], q.rst = false ∧ q.inValid = false) ∧
    (inFlight 3 1 (.sub 5#256 7#256) [.edge Ports.reset, .edge Ports.idle]).host =
      .edge Ports.reset :: [Ports.idle].map HostAction.edge := by decide

theorem witness_WaitingAndIdleEdgesIgnoreThePorts :
    Ports.idle.rst = false ∧ (inFlight 3 2 (.sub 5#256 7#256) []).block.busy = true ∧
    (inFlight 3 2 (.sub 5#256 7#256) []).block.cnt ≠ 0 ∧ (Ports.present (.add 1#256 1#256)).rst = false ∧
    (idle 3 []).block.busy = false ∧ Ports.idle.inValid = false := by decide

/-- Also for CompletingEdgeExecutesTheLatchedCommand; the four ways to let the edge pass are four lists. -/
theorem witness_StepRunsTheLatchedCommand :
    (inFlight 1 0 (.sub 5#256 7#256) []).block.busy = true ∧ (inFlight 1 0 (.sub 5#256 7#256) []).block.cnt = 0 ∧
    (inFlight 1 0 (.sub 5#256 7#256) []).block.lOp = some 1#1 ∧ (inFlight 1 0 (.sub 5#256 7#256) []).block.lA = some 5#256 ∧
    (inFlight 1 0 (.sub 5#256 7#256) []).block.lB = some 7#256 ∧ (inFlight 1 0 (.sub 5#256 7#256) []).host = [] ∧
    (inFlight 1 0 (.sub 5#256 7#256) [.edge Ports.idle]).host = [.edge Ports.idle] ∧ Ports.idle.rst = false ∧
    (inFlight 1 0 (.sub 5#256 7#256) [.issue (.add 1#256 1#256)]).host = [.issue (.add 1#256 1#256)] ∧
    (inFlight 1 0 (.sub 5#256 7#256) [.wait]).host = [.wait] ∧
    (inFlight 1 0 (.sub 5#256 7#256) [.wait]).block.valid = false := by decide

theorem witness_PlacedWordRunsAtTheNextStep : ∃ w : Nat, w < 2 ^ 513 := ⟨0, Nat.two_pow_pos _⟩

theorem witness_OutputPortsShowTheRegisters :
    ((idle 1 []).block.outputs false).inReady = true ∧ (Ports.present (.add 1#256 1#256)).rst = false ∧
    (Ports.present (.add 1#256 1#256)).inValid = true := by decide

/-- The invariant of a block that has just been reset. -/
theorem inv_idle (lat : Nat) (host : List HostAction) (h : 1 ≤ lat) : (idle lat host).Inv where
  latency := h
  block :=
    { exclusive := fun e => nomatch e.1
      inFlight := fun e => nomatch e
      response := fun e => nomatch e
      noResponse := fun _ => ⟨rfl, rfl, rfl⟩
      fresh := fun _ _ => rfl
      latches := ⟨rfl, rfl⟩
      counter := ⟨h, fun _ => rfl⟩ }

/-- The invariant of a block with a command in flight. -/
theorem inv_inFlight (lat cnt : Nat) (i : Instr) (host : List HostAction) (h : cnt < lat) :
    (inFlight lat cnt i host).Inv where
  latency := Nat.lt_of_le_of_lt (Nat.zero_le cnt) h
  block :=
    { exclusive := fun e => Bool.false_ne_true e.2
      inFlight := fun _ => by rw [Block.command_isSome]; rfl
      response := fun e => (Bool.false_ne_true e).elim
      noResponse := fun _ => ⟨rfl, rfl, rfl⟩
      fresh := fun e => (Bool.false_ne_true e.symm).elim
      latches := ⟨Eq.refl true, Eq.refl true⟩
      counter := ⟨h, fun e => (Bool.false_ne_true e.symm).elim⟩ }

/-- The invariant of a block that shows a response. -/
theorem inv_answered (i : Instr) (host : List HostAction) (h : (answered 1 i host).block.command = some i) :
    (answered 1 i host).Inv where
  latency := Nat.le_refl 1
  block :=
    { exclusive := fun e => Bool.false_ne_true e.1
      inFlight := fun e => (Bool.false_ne_true e).elim
      response := fun _ => ⟨i, h, rfl, rfl, rfl⟩
      noResponse := fun e => (Bool.false_ne_true e.symm).elim
      fresh := fun _ e => (Bool.false_ne_true e.symm).elim
      latches := ⟨Eq.refl true, Eq.refl true⟩
      counter := ⟨Nat.one_pos, fun _ => rfl⟩ }

theorem witness_ReadsHaveNoSideEffect :
    ∃ t, (answered 1 (.add 1#256 2#256) [.readStatus]).host = .readStatus :: [] ∧
      step (answered 1 (.add 1#256 2#256) [.readStatus]) = .next t := ⟨_, rfl, rfl⟩

/-- The two READ clauses: an answered success and an answered failure. -/
theorem witness_ReadsHaveNoSideEffect_read :
    (∃ t, step (answered 1 (.add 1#256 2#256) [.read]) = .next t) ∧
    (answered 1 (.add 1#256 2#256) [.read]).block.err = 0b00#2 ∧
    (∃ t, step (answered 1 (.add (word fieldPrime) 2#256) [.read]) = .next t) ∧
    (answered 1 (.add (word fieldPrime) 2#256) [.read]).block.err ≠ 0b00#2 :=
  ⟨⟨_, rfl⟩, by decide, ⟨_, rfl⟩, by decide⟩

/-- R36: a state for the clause under the invariant. -/
theorem witness_StatusWordsAreTheSevenListed : (inFlight 3 2 (.add 1#256 2#256) []).Inv := inv_inFlight 3 2 _ _ (by decide)

/-- R112: a success, a failure and no response yet, each with `out_res` about to be read. -/
theorem witness_ReadingAResultTooEarlyIsAHostError :
    ((answered 1 (.add 1#256 2#256) [.readResult]).Inv ∧ (answered 1 (.add 1#256 2#256) [.readResult]).block.err = 0b00#2 ∧
      (answered 1 (.add 1#256 2#256) [.readResult]).block.valid = true) ∧
    ((answered 1 (.add (word fieldPrime) 2#256) [.readResult]).Inv ∧
      (answered 1 (.add (word fieldPrime) 2#256) [.readResult]).block.err ≠ 0b00#2) ∧
    (idle 1 [.readResult]).Inv ∧ (idle 1 [.readResult]).block.valid = false :=
  ⟨⟨inv_answered _ _ (by decide), by decide, rfl⟩, ⟨inv_answered _ _ (by decide), by decide⟩, inv_idle 1 _ (by decide), rfl⟩

/-- R89: a host that keeps its duty and one that does not. -/
theorem witness_OnlyHostErrorsStopTheMachine :
    ((idle 1 [.readStatus]).Inv ∧ (idle 1 [.readStatus]).hostKeepsDuty = true) ∧
    (idle 1 [.read]).Inv ∧ (idle 1 [.read]).hostKeepsDuty = false :=
  ⟨⟨inv_idle 1 _ (by decide), rfl⟩, inv_idle 1 _ (by decide), rfl⟩

/-- R114: the block idle, and busy. -/
theorem witness_IssuedCommandIsHeldUntilAccepted :
    (idle 1 [.issue (.add 1#256 2#256)]).host = [.issue (.add 1#256 2#256)] ∧
    (idle 1 [.issue (.add 1#256 2#256)]).block.busy = false ∧
    (inFlight 3 2 (.sub 5#256 7#256) [.issue (.add 1#256 2#256)]).block.busy = true ∧
    ∃ t, step (inFlight 3 2 (.sub 5#256 7#256) [.issue (.add 1#256 2#256)]) = .next t :=
  ⟨rfl, rfl, rfl, _, rfl⟩

theorem witness_ResetStateIsIdleAndReady :
    (Ports.present (.add 1#256 2#256)).rst = false ∧ (Ports.present (.add 1#256 2#256)).inValid = true := by decide

theorem witness_EveryStepKeepsTheInvariant :
    (inFlight 3 2 (.sub 5#256 7#256) []).Inv ∧ ∃ t, step (inFlight 3 2 (.sub 5#256 7#256) []) = .next t :=
  ⟨inv_inFlight 3 2 _ _ (by decide), _, rfl⟩

/-- R29, R31: a state that holds a result. -/
theorem witness_InvariantBoundsTheRegisters :
    (answered 1 (.sub 5#256 5#256) []).Inv ∧ (answered 1 (.sub 5#256 5#256) []).block.result = some (word 0) :=
  ⟨inv_answered _ _ (by decide), by decide⟩

/-- R27, R28, each clause: a step that accepts, one that completes and one that resets. -/
theorem witness_HandshakeFlagsMoveOnlyAtTheirEdges :
    (∃ t, (answered 1 (.sub 5#256 5#256) [.issue (.add 1#256 2#256)]).Inv ∧
      step (answered 1 (.sub 5#256 5#256) [.issue (.add 1#256 2#256)]) = .next t ∧ t.block.busy = true ∧
      t.block.valid = false) ∧
    (∃ t, (inFlight 1 0 (.sub 5#256 5#256) []).Inv ∧ step (inFlight 1 0 (.sub 5#256 5#256) []) = .next t ∧
      t.block.busy = false ∧ t.block.valid = true) ∧
    (∃ t, (inFlight 1 0 (.sub 5#256 5#256) [HostAction.reset]).Inv ∧
      step (inFlight 1 0 (.sub 5#256 5#256) [HostAction.reset]) = .next t ∧ t.block.busy = false) :=
  ⟨⟨_, inv_answered _ _ (by decide), rfl, rfl, rfl⟩, ⟨_, inv_inFlight 1 0 _ _ (by decide), rfl, rfl, rfl⟩,
    ⟨_, inv_inFlight 1 0 _ _ (by decide), rfl, rfl⟩⟩

/-- For StepsKeepLatencyAndOnlyExtendTheRecord, CommandsAreSampledWholeAtOneEdge and ResponseStaysUntilAcceptanceOrReset. -/
theorem witness_step_gives_next :
    (∃ t, step (idle 1 []) = .next t) ∧
    (∃ t, step (idle 1 [.issue (.add 1#256 2#256)]) = .next t ∧ t.block ≠ (idle 1 [.issue (.add 1#256 2#256)]).block) ∧
    (idle 1 [.issue (.add 1#256 2#256)]).block.busy = false :=
  ⟨⟨_, rfl⟩, ⟨_, rfl, by decide⟩, rfl⟩

/-- R48: a command in flight and a step. -/
theorem witness_OneCommandIsInFlightAtATime :
    (inFlight 3 2 (.sub 5#256 7#256) []).block.busy = true ∧ ∃ t, step (inFlight 3 2 (.sub 5#256 7#256) []) = .next t :=
  ⟨rfl, _, rfl⟩

/-- R120, each clause: no action left; reads and an edge without reset left; a reset left; a WAIT for a response that cannot come. -/
theorem witness_EndedRunsStayEnded :
    (answered 1 (.sub 5#256 5#256) []).ended = true ∧
    ((answered 1 (.sub 5#256 5#256) [.edge Ports.idle, .wait, .read]).ended = true ∧
      ∃ t, run 3 (answered 1 (.sub 5#256 5#256) [.edge Ports.idle, .wait, .read]) = .next t ∧
        t.observed = [.reply (.ok 0#256 true)]) ∧
    ((answered 1 (.sub 5#256 5#256) [HostAction.reset]).ended = true ∧
      ∃ t, run 1 (answered 1 (.sub 5#256 5#256) [HostAction.reset]) = .next t ∧ t.block = Block.resetState) ∧
    (idle 1 [.wait]).ended = true := by
  refine ⟨by decide, ⟨by decide, _, rfl, by decide⟩, ⟨by decide, _, rfl, rfl⟩, by decide⟩

/-- R120: the run has not ended while a command is in flight, is presented, or follows what the host still does. -/
theorem test_run_not_ended :
    (inFlight 3 2 (.sub 5#256 7#256) []).ended = false ∧
    (idle 1 [.edge (Ports.present (.add 1#256 2#256))]).ended = false ∧
    (answered 1 (.sub 5#256 5#256) [.wait, .read, HostAction.reset, .issue (.add 1#256 2#256)]).ended = false := by decide

/-- R88, R119: `LAT = 1`, the accepting edge and one edge with nothing presented. -/
theorem witness_CommandsCompleteExactlyLatEdgesLater :
    let p := Ports.present (.add 1#256 2#256)
    let s := idle 1 (.edge p :: ([Ports.idle].map HostAction.edge ++ []))
    1 ≤ s.lat ∧ s.block.busy = false ∧ p.rst = false ∧ p.inValid = true ∧ [Ports.idle].length = s.lat ∧
    (∀ q ∈ [Ports.idle], q.rst = false) ∧ s.host = .edge p :: ([Ports.idle].map HostAction.edge ++ []) := by decide

/-- R115: `LAT = 2`, the accepting edge, two edges that still present the command, and one more. -/
theorem witness_HeldValidIssuesASecondCommand :
    let p := Ports.present (.add 1#256 2#256)
    let s := idle 2 (.edge p :: ([p, p].map HostAction.edge ++ .edge p :: []))
    1 ≤ s.lat ∧ s.block.busy = false ∧ p.rst = false ∧ p.inValid = true ∧ [p, p].length = s.lat ∧
    (∀ x ∈ [p, p], x.rst = false ∧ x.inValid = true) ∧
    s.host = .edge p :: ([p, p].map HostAction.edge ++ .edge p :: []) := by decide

/-- R73, R74: latencies 1 and 2, with a read of the status word in between. -/
theorem witness_ResponseDependsOnlyOnTheCommand :
    (idle 1 []).block.busy = false ∧ (answered 1 (.sub 5#256 5#256) []).block.busy = false ∧
    (Ports.present (.add 1#256 2#256)).rst = false ∧ (Ports.present (.add 1#256 2#256)).inValid = true ∧
    [HostAction.edge Ports.idle].countP isEdge = 1 ∧
    [HostAction.edge Ports.idle, .readStatus, .edge (Ports.present (.sub 1#256 2#256))].countP isEdge = 2 ∧
    (∀ x ∈ [HostAction.edge Ports.idle, .readStatus, .edge (Ports.present (.sub 1#256 2#256))], Quiet x) := by
  refine ⟨rfl, rfl, rfl, rfl, rfl, rfl, ?_⟩
  intro x hx
  simp only [List.mem_cons, List.not_mem_nil, or_false] at hx
  rcases hx with rfl | rfl | rfl
  · exact rfl
  · trivial
  · exact rfl

/-- R116: an idle block, and one with a command in flight. -/
theorem witness_WaitingOnTheSignalsGivesTheResponse :
    (idle 1 [.issue (.add 1#256 2#256), .wait, .read]).Inv ∧
    (inFlight 3 2 (.sub 5#256 7#256) [.issue (.add 1#256 2#256), .wait, .read]).Inv :=
  ⟨inv_idle 1 _ (by decide), inv_inFlight 3 2 _ _ (by decide)⟩

/-- R102: two instances, of which the second steps. -/
theorem witness_InstancesDoNotAffectEachOther :
    [idle 1 [], inFlight 3 2 (.sub 5#256 7#256) []][1]? = some (inFlight 3 2 (.sub 5#256 7#256) []) ∧
    ∃ sys, stepInstance 1 [idle 1 [], inFlight 3 2 (.sub 5#256 7#256) []] = .next sys := ⟨rfl, _, rfl⟩

end Sys2Proof.Tests
end

section
/-! The field prime: its value in powers of two, and the widths that follow (R3, R4). -/

namespace Sys2Proof.Config

theorem fieldPrime_eq_sum_of_powers : fieldPrime = 2 ^ 251 + 17 * 2 ^ 192 + 1 := by decide

theorem two_pow_251_lt_fieldPrime : 2 ^ 251 < fieldPrime := by decide

theorem fieldPrime_lt_two_pow_252 : fieldPrime < 2 ^ 252 := by decide

/-- The sum of two field elements fits in 253 bits. -/
theorem add_lt_two_pow_253 {a b : Nat} (ha : a < fieldPrime) (hb : b < fieldPrime) : a + b < 2 ^ 253 := by
  have := fieldPrime_lt_two_pow_252
  omega

end Sys2Proof.Config

namespace Sys2Proof.Claims

theorem word_fieldPrime_bit_251 : (word Config.fieldPrime).getLsbD 251 = true := by decide

theorem word_fieldPrime_topBits : (word Config.fieldPrime).extractLsb' 252 4 = 0b0000#4 := by decide

/-- Settles O1: the bounds and bits of the literal, and the width of a sum from the upper bound. -/
theorem fieldPrimeIsTheLiteralOfWidth252 : Obligations.FieldPrimeIsTheLiteralOfWidth252 := by
  have two_mul_lt : 2 * Config.fieldPrime < 2 ^ 253 := by
    have := Config.fieldPrime_lt_two_pow_252
    omega
  exact ⟨rfl, Config.fieldPrime_eq_sum_of_powers, Config.two_pow_251_lt_fieldPrime, Config.fieldPrime_lt_two_pow_252,
    word_fieldPrime_bit_251, word_fieldPrime_topBits, two_mul_lt, fun _ _ => Config.add_lt_two_pow_253⟩

end Sys2Proof.Claims
end

section
/-! No operation of the machine refuses, and what a step leaves of the latency, the host's list and its record. -/

namespace Sys2Proof.Machine

/-- An edge answers a next state or the one fault of an empty latch. -/
theorem clock_next_or_fault (p : Ports) (s : State) :
    (∃ t, clock p s = .next t) ∨ clock p s = .fault .noCommandLatched := by
  cases hk : edgeKind s.block p with
  | reset => simp [clock, hk]
  | accept => simp [clock, hk]
  | wait => simp [clock, hk]
  | idle => simp [clock, hk]
  | complete =>
    cases hi : s.block.command with
    | none => simp [clock, hk, hi]
    | some i => simp [clock, hk, hi, exec_eq]

theorem clock_ne_refused (p : Ports) (s : State) (r : Refusal) : clock p s ≠ .refused r := by
  rcases clock_next_or_fault p s with ⟨t, h⟩ | h <;> simp [h]

theorem readResult_ne_refused (s : State) (r : Refusal) : readResult s ≠ .refused r := by
  unfold readResult
  split <;> simp

theorem readReply_ne_refused (s : State) (r : Refusal) : readReply s ≠ .refused r := by
  unfold readReply
  split <;> simp

theorem perform_ne_refused (act : HostAction) (rest : List HostAction) (s : State) (r : Refusal) :
    perform act rest s ≠ .refused r := by
  cases act with
  | edge p => exact clock_ne_refused _ _ r
  | issue i => exact clock_ne_refused _ _ r
  | wait =>
    simp only [perform]
    split
    · simp
    · exact clock_ne_refused _ _ r
  | read => exact readReply_ne_refused _ r
  | readResult => exact readResult_ne_refused _ r
  | readStatus => simp [perform]
  | readReady rst => simp [perform]

theorem step_ne_refused (s : State) (r : Refusal) : step s ≠ .refused r := by
  cases hh : s.host with
  | nil => rw [step_nil hh]; exact clock_ne_refused _ _ r
  | cons act rest => rw [step_cons hh]; exact perform_ne_refused _ _ _ r

/-- The frame of an edge: only the registers of the block can change. -/
theorem clock_frame {p : Ports} {s t : State} (h : clock p s = .next t) :
    t.lat = s.lat ∧ t.host = s.host ∧ t.observed = s.observed := by
  obtain ⟨-, rfl⟩ | ⟨-, -, -, rfl⟩ | ⟨-, -, -, i, -, rfl⟩ | ⟨-, -, -, rfl⟩ | ⟨-, -, -, rfl⟩ := clock_cases h <;>
    exact ⟨rfl, rfl, rfl⟩

/-- The frame of a step outside the block: `LAT` stays, the host's list stays or moves on, and its record gains at most one
value. -/
theorem step_frame {s t : State} (h : step s = .next t) :
    t.lat = s.lat ∧ (t.host = s.host ∨ t.host = s.host.tail) ∧
      ∃ os, t.observed = s.observed ++ os ∧ os.length ≤ 1 := by
  obtain ⟨p, l, hl, hc⟩ | ⟨-, hlat, hhost, hobs | ⟨o, hobs⟩⟩ := step_cases h
  · obtain ⟨hlat, rfl, hobs⟩ := clock_frame hc
    exact ⟨hlat, hl, [], by simpa using hobs, Nat.zero_le 1⟩
  · exact ⟨hlat, .inr hhost, [], by simpa using hobs, Nat.zero_le 1⟩
  · exact ⟨hlat, .inr hhost, [o], hobs, Nat.le_refl 1⟩

/-- Settles O44, from the frame of a step and the absence of a refusing operation. -/
theorem stepsKeepLatencyAndOnlyExtendTheRecord : Obligations.StepsKeepLatencyAndOnlyExtendTheRecord :=
  ⟨step_ne_refused, fun _ _ => step_frame⟩

end Sys2Proof.Machine
end

section
/-! The decoder reads back a command from its own frame (R54, R66). -/

namespace Sys2Proof

@[simp] theorem decodeFrame_encode (i : Instr) : decodeFrame (encode i) = i := by
  cases i with
  | add a b => simp [encode, decodeFrame]
  | sub a b => simp [encode, decodeFrame]

end Sys2Proof
end

section
/-! The invariant of the registers (R27 to R32): what one step can do to the block, and that each of its writes keeps the
invariant. -/

namespace Sys2Proof.Machine

/-! ### The writes of an edge -/

section Writes
variable {b : Block} {lat : Nat}

/-- The registers of R37 meet the invariant. -/
theorem Block.inv_resetState (hlat : 1 ≤ lat) : Block.resetState.Inv lat where
  exclusive := by simp
  inFlight := by simp
  response := by simp
  noResponse := by simp
  fresh := by simp
  latches := by simp
  counter := ⟨hlat, fun _ => rfl⟩

/-- An accepting edge establishes the invariant, whatever the registers held (R67). -/
theorem Block.inv_accept (hlat : 1 ≤ lat) (p : Ports) : (b.accept lat p).Inv lat where
  exclusive := by simp
  inFlight := by simp
  response := by simp
  noResponse := by simp
  fresh := by simp
  latches := by simp
  counter := ⟨Nat.sub_lt hlat Nat.one_pos, by simp⟩

/-- A completing edge gives the response of the latched command (R68). -/
theorem Block.Inv.complete (h : b.Inv lat) (hc : b.cnt = 0) {i : Instr} (hi : b.command = some i) :
    (b.complete (execute i)).Inv lat where
  exclusive := by simp
  inFlight := by simp
  response := fun _ => ⟨i, hi, rfl, rfl, rfl⟩
  noResponse := by simp
  fresh := by simp
  latches := h.latches
  counter := ⟨h.counter.1, fun _ => hc⟩

/-- A waiting edge only lowers `CNT` (R69). -/
theorem Block.Inv.countDown (h : b.Inv lat) : b.countDown.Inv lat where
  exclusive := h.exclusive
  inFlight := h.inFlight
  response := h.response
  noResponse := h.noResponse
  fresh := h.fresh
  latches := h.latches
  counter := by
    obtain ⟨hlt, hidle⟩ := h.counter
    exact ⟨Nat.lt_of_le_of_lt (Nat.sub_le _ _) hlt, fun hb => by simp [hidle hb]⟩

end Writes

/-! ### One step -/

/-- All that a step can do to the registers: nothing (an idle edge or a read), or the writes of one kind of edge. -/
theorem step_block_cases {s t : State} (h : step s = .next t) :
    t.block = s.block ∨
    t.block = Block.resetState ∨
    (s.block.busy = false ∧ ∃ p, t.block = s.block.accept s.lat p) ∨
    (s.block.busy = true ∧ s.block.cnt = 0 ∧
      ∃ i, s.block.command = some i ∧ t.block = s.block.complete (execute i)) ∨
    (s.block.busy = true ∧ s.block.cnt ≠ 0 ∧ t.block = s.block.countDown) := by
  obtain ⟨p, l, -, hc⟩ | ⟨hblock, -⟩ := step_cases h
  · obtain ⟨-, rfl⟩ | ⟨-, hb, -, rfl⟩ | ⟨-, hb, hcnt, i, hi, rfl⟩ | ⟨-, hb, hcnt, rfl⟩ | ⟨-, -, -, rfl⟩ := clock_cases hc
    · exact .inr (.inl rfl)
    · exact .inr (.inr (.inl ⟨hb, p, rfl⟩))
    · exact .inr (.inr (.inr (.inl ⟨hb, hcnt, i, hi, rfl⟩)))
    · exact .inr (.inr (.inr (.inr ⟨hb, hcnt, rfl⟩)))
    · exact .inl rfl
  · exact .inl hblock

theorem step_block_inv {s t : State} (hs : s.Inv) (h : step s = .next t) : t.block.Inv s.lat := by
  obtain ht | ht | ⟨-, p, ht⟩ | ⟨-, hcnt, i, hi, ht⟩ | ⟨-, -, ht⟩ := step_block_cases h <;> rw [ht]
  · exact hs.block
  · exact Block.inv_resetState hs.latency
  · exact Block.inv_accept hs.latency p
  · exact hs.block.complete hcnt hi
  · exact hs.block.countDown

theorem step_inv {s t : State} (hs : s.Inv) (h : step s = .next t) : t.Inv := by
  have hlat : t.lat = s.lat := (step_frame h).1
  exact ⟨hlat ▸ hs.latency, hlat ▸ step_block_inv hs h⟩

/-- Settles O42, from the writes a step can make, each of which keeps the invariant. -/
theorem everyStepKeepsTheInvariant : Obligations.EveryStepKeepsTheInvariant :=
  fun _ _ => step_inv

/-- Settles O41: the opaque `LAT` is a successor. -/
theorem resetMeetsTheInvariant : Obligations.ResetMeetsTheInvariant :=
  have hlat : 1 ≤ State.reset.lat := Nat.succ_pos _
  ⟨hlat, Block.inv_resetState hlat⟩

end Sys2Proof.Machine
end

section
/-! What a response can be, and so what the registers can hold under the invariant (R29 to R32, R36). -/

namespace Sys2Proof.Machine

section Responses
variable (r : Nat) (m : BitVec 2)

@[simp] theorem success_err : (success r).err = 0#2 := rfl
@[simp] theorem success_result : (success r).result = some (BitVec.ofNat 256 r) := rfl
@[simp] theorem success_zero : (success r).zero = zeroFlag r := rfl
@[simp] theorem malformedInput_err : (malformedInput m).err = m := rfl
@[simp] theorem malformedInput_result : (malformedInput m).result = none := rfl
@[simp] theorem malformedInput_zero : (malformedInput m).zero = false := rfl

end Responses

theorem fieldPrime_pos : 0 < Config.fieldPrime := by decide

theorem addMod_lt (a b : Nat) : addMod a b < Config.fieldPrime := Nat.mod_lt _ fieldPrime_pos

theorem subMod_lt (a b : Nat) : subMod a b < Config.fieldPrime := by
  have hpos : (0 : Int) < Config.fieldPrime := Int.natCast_pos.mpr fieldPrime_pos
  exact (Int.toNat_lt_of_ne_zero fieldPrime_pos.ne').mpr (Int.emod_lt_of_pos _ hpos)

/-- The check common to both commands lets through results of the field only. -/
theorem checked_cases {f : Nat → Nat → Nat} (hf : ∀ x y, f x y < Config.fieldPrime) (a b : Word) :
    (∃ r, r < Config.fieldPrime ∧ checked f a b = success r) ∨ (∃ m, m ≠ 0#2 ∧ checked f a b = malformedInput m) := by
  by_cases h : errMask a b = 0#2
  · exact .inl ⟨f (val a) (val b), hf _ _, by simp [checked, h]⟩
  · exact .inr ⟨errMask a b, h, by simp [checked, h]⟩

/-- A command succeeds with a field element or fails with a mask that is not `00` (R70). -/
theorem execute_cases (i : Instr) :
    (∃ r, r < Config.fieldPrime ∧ execute i = success r) ∨ (∃ m, m ≠ 0#2 ∧ execute i = malformedInput m) := by
  cases i with
  | add a b => exact checked_cases addMod_lt a b
  | sub a b => exact checked_cases subMod_lt a b

/-! ### The registers under the invariant -/

/-- The response registers hold a success, a failure or no response. -/
theorem Block.Inv.response_cases {b : Block} {lat : Nat} (h : b.Inv lat) :
    (b.valid = false ∧ b.err = 0#2 ∧ b.zero = false ∧ b.result = none) ∨
    (b.valid = true ∧ b.err = 0#2 ∧ ∃ r, r < Config.fieldPrime ∧ b.zero = zeroFlag r ∧ b.result = some (BitVec.ofNat 256 r)) ∨
    (b.valid = true ∧ b.err ≠ 0#2 ∧ b.zero = false ∧ b.result = none) := by
  cases hv : b.valid with
  | false => exact .inl ⟨rfl, h.noResponse hv⟩
  | true =>
    obtain ⟨i, -, herr, hresult, hzero⟩ := h.response hv
    rw [herr, hresult, hzero]
    obtain ⟨r, hr, hi⟩ | ⟨m, hm, hi⟩ := execute_cases i <;> rw [hi]
    · exact .inr (.inl ⟨rfl, rfl, r, hr, rfl, rfl⟩)
    · exact .inr (.inr ⟨rfl, hm, rfl, rfl⟩)

theorem Block.Inv.busy_eq_false {b : Block} {lat : Nat} (h : b.Inv lat) (hv : b.valid = true) : b.busy = false :=
  Bool.eq_false_iff.mpr fun hb => h.exclusive ⟨hb, hv⟩

/-! ### Field elements as words -/

theorem toNat_ofNat_of_lt_fieldPrime {r : Nat} (h : r < Config.fieldPrime) : (BitVec.ofNat 256 r).toNat = r := by
  have := Config.fieldPrime_lt_two_pow_252
  exact (BitVec.toNat_ofNat r 256).trans (Nat.mod_eq_of_lt (by omega))

/-- A field element has its bits 255 to 252 zero (R29). -/
theorem topBits_of_lt_fieldPrime {v : Word} (h : v.toNat < Config.fieldPrime) : v.extractLsb' 252 4 = 0b0000#4 := by
  apply BitVec.eq_of_toNat_eq
  have hdiv : v.toNat / 2 ^ 252 = 0 := Nat.div_eq_of_lt (h.trans Config.fieldPrime_lt_two_pow_252)
  rw [BitVec.extractLsb'_toNat, Nat.shiftRight_eq_div_pow, hdiv]
  rfl

theorem zeroFlag_iff_word {r : Nat} (h : r < Config.fieldPrime) :
    zeroFlag r = true ↔ BitVec.ofNat 256 r = BitVec.ofNat 256 0 := by
  rw [← BitVec.toNat_inj, toNat_ofNat_of_lt_fieldPrime h, toNat_ofNat_of_lt_fieldPrime fieldPrime_pos]
  simp [zeroFlag]

/-- The counts below a latency fit in the width of `CNT` (R32). -/
theorem lt_two_pow_cntWidth {n lat : Nat} (h : n < lat) : n < 2 ^ Config.cntWidth lat :=
  calc n < lat := h
    _ ≤ 2 ^ Nat.clog 2 lat := Nat.le_pow_clog Nat.one_lt_two lat
    _ ≤ 2 ^ Config.cntWidth lat := Nat.pow_le_pow_right Nat.two_pos (Nat.le_max_right _ _)

/-- Settles O43, by the three things the response registers can hold. -/
theorem invariantBoundsTheRegisters : Obligations.InvariantBoundsTheRegisters := by
  intro s hs
  have hcnt := lt_two_pow_cntWidth hs.block.counter.1
  obtain ⟨hv, -, hz, hr⟩ | ⟨hv, he, r, hlt, hz, hr⟩ | ⟨hv, he, hz, hr⟩ := hs.block.response_cases
  · simp [hv, hz, hr, hcnt]
  · have hfield : (BitVec.ofNat 256 r).toNat < Config.fieldPrime := by rwa [toNat_ofNat_of_lt_fieldPrime hlt]
    refine ⟨by simp [hv, he, hr], ?_, ?_, hcnt⟩
    · intro v hrv
      obtain rfl := Option.some.inj (hr.symm.trans hrv)
      exact ⟨hfield, topBits_of_lt_fieldPrime hfield⟩
    · rw [hz, hr, zeroFlag_iff_word hlt]
      simp [hv, he]
  · simp [he, hz, hr, hcnt]

/-! ### The STATUS word -/

theorem status_bits (b : Block) :
    b.status.getLsbD 0 = b.busy ∧ b.status.getLsbD 1 = b.valid ∧ b.status.getLsbD 2 = b.err.getLsbD 0 ∧
    b.status.getLsbD 3 = b.err.getLsbD 1 ∧ b.status.getLsbD 4 = b.zero := by
  refine ⟨?_, ?_, ?_, ?_, ?_⟩ <;> rw [Block.status, BitVec.getLsbD_cast] <;> simp only [BitVec.getLsbD_append] <;> simp

/-- The seven words of R36, in its order. -/
def statusWords : List (BitVec 5) :=
  [0b00000#5, 0b00001#5, 0b00010#5, 0b10010#5, 0b00110#5, 0b01010#5, 0b01110#5]

theorem status_mem_of_noResponse {b : Block} (hv : b.valid = false) (he : b.err = 0#2) (hz : b.zero = false) :
    b.status ∈ statusWords := by
  rw [Block.status, hv, he, hz]
  cases b.busy <;> decide

theorem status_mem_of_success {b : Block} (hb : b.busy = false) (hv : b.valid = true) (he : b.err = 0#2) :
    b.status ∈ statusWords := by
  rw [Block.status, hb, hv, he]
  cases b.zero <;> decide

theorem status_mem_of_failure {b : Block} (hb : b.busy = false) (hv : b.valid = true) (he : b.err ≠ 0#2)
    (hz : b.zero = false) : b.status ∈ statusWords := by
  have mem_of_mask : ∀ m : BitVec 2, m ≠ 0#2 →
      (BitVec.ofBool false ++ m ++ BitVec.ofBool true ++ BitVec.ofBool false : BitVec 5) ∈ statusWords := by decide
  rw [Block.status, hb, hv, hz]
  exact mem_of_mask b.err he

theorem Block.Inv.status_mem {b : Block} {lat : Nat} (h : b.Inv lat) : b.status ∈ statusWords := by
  obtain ⟨hv, he, hz, -⟩ | ⟨hv, he, -⟩ | ⟨hv, he, hz, -⟩ := h.response_cases
  · exact status_mem_of_noResponse hv he hz
  · exact status_mem_of_success (h.busy_eq_false hv) hv he
  · exact status_mem_of_failure (h.busy_eq_false hv) hv he hz

/-! ### A state for each STATUS word -/

/-- A block of latency 1 that has just accepted the command `i` after a reset. -/
def State.accepted (i : Instr) : State :=
  { State.reset with lat := 1, block := Block.resetState.accept 1 (Ports.present i) }

/-- The same block one edge later. -/
def State.answered (i : Instr) : State := (State.accepted i).complete (execute i)

theorem State.accepted_inv (i : Instr) : (State.accepted i).Inv :=
  ⟨Nat.le_refl 1, Block.inv_accept (b := Block.resetState) (Nat.le_refl 1) _⟩

theorem State.step_accepted (i : Instr) : step (State.accepted i) = .next (State.answered i) := by
  have hcommand : (State.accepted i).block.command = some i := by simp [State.accepted]
  rw [step_nil rfl, clock_complete rfl rfl rfl hcommand, exec_eq, State.answered]

theorem State.answered_inv (i : Instr) : (State.answered i).Inv :=
  step_inv (State.accepted_inv i) (State.step_accepted i)

/-- Each of the seven words is that of a reset block, of one in flight, or of one that has answered. -/
theorem exists_inv_status_of_mem : ∀ w ∈ statusWords, ∃ s : State, s.Inv ∧ s.block.status = w := by
  intro w hw
  simp only [statusWords, List.mem_cons, List.not_mem_nil, or_false] at hw
  obtain rfl | rfl | rfl | rfl | rfl | rfl | rfl := hw
  · exact ⟨_, resetMeetsTheInvariant, rfl⟩
  · exact ⟨_, State.accepted_inv (.add 0#256 0#256), by decide⟩
  · exact ⟨_, State.answered_inv (.add 0#256 1#256), by decide⟩
  · exact ⟨_, State.answered_inv (.add 0#256 0#256), by decide⟩
  · exact ⟨_, State.answered_inv (.add (BitVec.allOnes 256) 0#256), by decide⟩
  · exact ⟨_, State.answered_inv (.add 0#256 (BitVec.allOnes 256)), by decide⟩
  · exact ⟨_, State.answered_inv (.add (BitVec.allOnes 256) (BitVec.allOnes 256)), by decide⟩

/-- Settles O35: the invariant allows the seven words only, and each has its state. -/
theorem statusWordsAreTheSevenListed : Obligations.StatusWordsAreTheSevenListed :=
  ⟨status_bits, fun _ hs => hs.block.status_mem, rfl, exists_inv_status_of_mem⟩

end Sys2Proof.Machine
end

section
/-! The edges at which `BUSY` and `VALID` change (R27, R28). -/

namespace Sys2Proof.Machine

variable {s t : State}

theorem busy_rises (h : step s = .next t) (hb : s.block.busy = false) (hb' : t.block.busy = true) :
    ∃ p, t.block = s.block.accept s.lat p := by
  obtain ht | ht | ⟨-, haccept⟩ | ⟨hbusy, -⟩ | ⟨hbusy, -⟩ := step_block_cases h
  · simp [ht, hb] at hb'
  · simp [ht] at hb'
  · exact haccept
  · simp [hb] at hbusy
  · simp [hb] at hbusy

theorem busy_falls (h : step s = .next t) (hb : s.block.busy = true) (hb' : t.block.busy = false) :
    (s.block.cnt = 0 ∧ ∃ i, t.block = s.block.complete (execute i)) ∨ t.block = Block.resetState := by
  obtain ht | ht | ⟨-, p, ht⟩ | ⟨-, hcnt, i, -, ht⟩ | ⟨-, -, ht⟩ := step_block_cases h
  · simp [ht, hb] at hb'
  · exact .inr ht
  · simp [ht] at hb'
  · exact .inl ⟨hcnt, i, ht⟩
  · simp [ht, hb] at hb'

theorem valid_rises (h : step s = .next t) (hv : s.block.valid = false) (hv' : t.block.valid = true) :
    s.block.busy = true ∧ s.block.cnt = 0 ∧
      ∃ i, s.block.command = some i ∧ t.block = s.block.complete (execute i) := by
  obtain ht | ht | ⟨-, p, ht⟩ | hcomplete | ⟨-, -, ht⟩ := step_block_cases h
  · simp [ht, hv] at hv'
  · simp [ht] at hv'
  · simp [ht] at hv'
  · exact hcomplete
  · simp [ht, hv] at hv'

theorem valid_falls (h : step s = .next t) (hv : s.block.valid = true) (hv' : t.block.valid = false) :
    (s.block.busy = false ∧ ∃ p, t.block = s.block.accept s.lat p) ∨ t.block = Block.resetState := by
  obtain ht | ht | haccept | ⟨-, -, i, -, ht⟩ | ⟨-, -, ht⟩ := step_block_cases h
  · simp [ht, hv] at hv'
  · exact .inr ht
  · exact .inl haccept
  · simp [ht] at hv'
  · simp [ht, hv] at hv'

/-- A completion is what the latched command's own `exec` does. -/
theorem exec_eq_of_block_eq_complete {i : Instr} (ht : t.block = s.block.complete (execute i)) :
    exec i s = .next { s with block := t.block } := by
  rw [exec_eq, ht, State.complete]

/-- Settles O45: each flag at each of its edges, and the invariant after the step. -/
theorem handshakeFlagsMoveOnlyAtTheirEdges : Obligations.HandshakeFlagsMoveOnlyAtTheirEdges := by
  intro s t hs h
  refine ⟨fun hb hb' => ?_, fun hb hb' => ?_, fun hv hv' => ?_, fun hv hv' => ?_, (step_inv hs h).block.exclusive⟩
  · obtain ⟨p, ht⟩ := busy_rises h hb hb'
    simp [ht]
  · exact (busy_falls h hb hb').imp_left fun ⟨hcnt, i, ht⟩ => ⟨hcnt, by simp [ht], by simp [ht]⟩
  · obtain ⟨hb, hcnt, i, hi, ht⟩ := valid_rises h hv hv'
    exact ⟨hb, hcnt, by simp [ht], i, hi, exec_eq_of_block_eq_complete ht⟩
  · exact (valid_falls h hv hv').imp_left fun ⟨hb, p, ht⟩ => ⟨hb, by simp [ht]⟩

end Sys2Proof.Machine
end

section
/-! The ports between two edges (R18 to R25), a command held on them (R33, R114), and the state after reset (R37, R111). -/

namespace Sys2Proof.Machine

theorem inReady_iff {b : Block} {rst : Bool} : b.inReady rst = true ↔ b.busy = false ∧ rst = false := by
  simp [Block.inReady]

/-- A command presented to a ready block is accepted at the next edge (R18, R67). -/
theorem clock_accepts_of_inReady {p : Ports} {s : State} (h : s.block.inReady p.rst = true) (hv : p.inValid = true) :
    ∃ t, clock p s = .next t ∧ t.block.command = some (decodeFrame p.frame) ∧ t.block.busy = true := by
  obtain ⟨hb, hr⟩ := inReady_iff.mp h
  exact ⟨_, clock_accept hr hb hv, rfl, rfl⟩

/-- Settles O34: the outputs are the registers by definition, and a ready block accepts. -/
theorem outputPortsShowTheRegisters : Obligations.OutputPortsShowTheRegisters := by
  intro b rst
  refine ⟨inReady_iff, rfl, rfl, rfl, rfl, ?_⟩
  rintro p s rfl rfl hv hready
  obtain ⟨t, ht, hcommand, -⟩ := clock_accepts_of_inReady hready hv
  exact ⟨t, ht, hcommand⟩

/-! ### A command the host holds -/

section Issue
variable {s : State} {i : Instr} {rest : List HostAction}

theorem step_issue_idle (hh : s.host = .issue i :: rest) (hb : s.block.busy = false) :
    step s = .next { s with host := rest, block := s.block.accept s.lat (Ports.present i) } := by
  rw [step_cons hh, perform, if_pos (inReady_iff.mpr ⟨hb, rfl⟩)]
  exact clock_accept rfl hb rfl

theorem step_issue_busy (hh : s.host = .issue i :: rest) (hb : s.block.busy = true) :
    step s = clock (Ports.present i) s := by
  have hready : s.block.inReady false ≠ true := by simp [Block.inReady, hb]
  rw [step_cons hh, perform, if_neg hready, ← hh]

end Issue

/-- An edge without reset while a command is in flight keeps that command in the latches (R48). -/
theorem clock_busy_command {p : Ports} {s t : State} (hr : p.rst = false) (hb : s.block.busy = true)
    (h : clock p s = .next t) : t.block.command = s.block.command := by
  obtain ⟨hr', -⟩ | ⟨-, hb', -⟩ | ⟨-, -, -, i, -, rfl⟩ | ⟨-, -, -, rfl⟩ | ⟨-, hb', -⟩ := clock_cases h
  · simp [hr] at hr'
  · simp [hb] at hb'
  · exact complete_command ..
  · exact countDown_command ..
  · simp [hb] at hb'

/-- Settles O39: the accepting edge of an idle block, and the frame of an edge of a busy one. -/
theorem issuedCommandIsHeldUntilAccepted : Obligations.IssuedCommandIsHeldUntilAccepted := by
  intro s i rest hh
  constructor
  · intro hb
    exact ⟨_, step_issue_idle hh hb, rfl, by simp, rfl, rfl⟩
  · intro t hb h
    rw [step_issue_busy hh hb] at h
    exact ⟨(clock_frame h).2.1, clock_busy_command rfl hb h⟩

/-! ### The state after reset -/

/-- With nothing presented an idle block stays as it is. -/
theorem run_of_idle {s : State} (hh : s.host = []) (hb : s.block.busy = false) (n : Nat) : run n s = .next s := by
  induction n with
  | zero => rfl
  | succ n ih => rwa [run_succ ((step_nil hh).trans (clock_idle rfl hb rfl))]

/-- Settles O40: the reset state is idle, so it stays, and ready, so it accepts. -/
theorem resetStateIsIdleAndReady : Obligations.ResetStateIsIdleAndReady := by
  refine ⟨rfl, rfl, rfl, rfl, rfl, rfl, rfl, run_of_idle rfl rfl, fun p hr hv => ?_⟩
  exact clock_accepts_of_inReady (inReady_iff.mpr ⟨rfl, hr⟩) hv

end Sys2Proof.Machine
end

section
/-! The big-endian serialisation of a 256-bit value (R42): a list of bytes is a numeral to the base 256, its last byte the low
digit, and `be32` writes the digits of a value. -/

namespace Sys2Proof

/-! ### The number a list of bytes spells -/

theorem bytesValue_concat (bs : List Byte) (x : Byte) : bytesValue (bs ++ [x]) = bytesValue bs * 256 + x.toNat := by
  simp [bytesValue]

theorem bytesValue_eq_ofDigits (bs : List Byte) :
    bytesValue bs = Nat.ofDigits 256 (bs.reverse.map BitVec.toNat) := by
  induction bs using List.reverseRecOn with
  | nil => rfl
  | append_singleton bs x ih =>
    rw [bytesValue_concat, ih, List.reverse_concat, List.map_cons, Nat.ofDigits_cons, Nat.add_comm, Nat.mul_comm]

theorem bytesValue_cons (x : Byte) (bs : List Byte) :
    bytesValue (x :: bs) = x.toNat * 256 ^ bs.length + bytesValue bs := by
  rw [bytesValue_eq_ofDigits, bytesValue_eq_ofDigits, List.reverse_cons, List.map_append, Nat.ofDigits_append,
    List.length_map, List.length_reverse, List.map_singleton, Nat.ofDigits_singleton, Nat.add_comm, Nat.mul_comm]

/-- The value of a serialisation, byte `k` of `n` weighing `256 ^ (n - 1 - k)`. -/
theorem bytesValue_eq_sum (bs : List Byte) :
    bytesValue bs = ((List.range bs.length).map fun k => (bs[k]?.getD 0#8).toNat * 256 ^ (bs.length - 1 - k)).sum := by
  induction bs with
  | nil => rfl
  | cons x bs ih =>
    rw [bytesValue_cons, ih, List.length_cons, List.range_succ_eq_map]
    simp [Function.comp_def, Nat.sub_sub, Nat.add_comm 1]

theorem toNat_digits_lt {bs : List Byte} : ∀ d ∈ bs.reverse.map BitVec.toNat, d < 256 := by
  intro d hd
  obtain ⟨x, -, rfl⟩ := List.mem_map.mp hd
  exact x.isLt

theorem bytesValue_lt (bs : List Byte) : bytesValue bs < 256 ^ bs.length := by
  rw [bytesValue_eq_ofDigits]
  simpa using Nat.ofDigits_lt_base_pow_length (by decide : 1 < 256) (toNat_digits_lt (bs := bs))

/-- Lists of the same number of bytes that spell the same number are the same. -/
theorem bytesValue_inj {bs cs : List Byte} (hlen : bs.length = cs.length) (h : bytesValue bs = bytesValue cs) :
    bs = cs := by
  rw [bytesValue_eq_ofDigits, bytesValue_eq_ofDigits] at h
  have hdigits := Nat.ofDigits_inj_of_len_eq (by decide : 1 < 256) (by simpa using hlen) toNat_digits_lt
    toNat_digits_lt h
  exact List.reverse_injective (List.map_injective_iff.mpr (fun _ _ => BitVec.eq_of_toNat_eq) hdigits)

/-! ### `be32` and `from_be32` -/

@[simp] theorem be32_length (v : Word) : (be32 v).length = 32 := by simp [be32]

theorem be32_getElem? {k : Nat} (v : Word) (hk : k < 32) : (be32 v)[k]? = some (v.extractLsb' (248 - 8 * k) 8) := by
  simp [be32, hk]

/-- The first `n` bytes of a serialisation spell the high `8 * n` bits of the value. -/
theorem bytesValue_take_be32 (v : Word) {n : Nat} (hn : n ≤ 32) :
    bytesValue ((be32 v).take n) = v.toNat / 2 ^ (256 - 8 * n) := by
  induction n with
  | zero => exact (Nat.div_eq_of_lt v.isLt).symm
  | succ n ih =>
    have hpow : 2 ^ (256 - 8 * n) = 2 ^ (248 - 8 * n) * 256 := by
      rw [show 256 - 8 * n = 248 - 8 * n + 8 by omega, Nat.pow_add]
    rw [List.take_add_one, be32_getElem? v hn, Option.toList_some, bytesValue_concat, ih (by omega), hpow,
      BitVec.extractLsb'_toNat, Nat.shiftRight_eq_div_pow, ← Nat.div_div_eq_div_mul,
      show 256 - 8 * (n + 1) = 248 - 8 * n by omega]
    exact Nat.div_add_mod' _ _

@[simp] theorem bytesValue_be32 (v : Word) : bytesValue (be32 v) = v.toNat := by
  simpa [List.take_of_length_le] using bytesValue_take_be32 v (Nat.le_refl 32)

theorem fromBe32_eq_some {bs : List Byte} (h : bs.length = 32) :
    fromBe32 bs = some (BitVec.ofNat 256 (bytesValue bs)) := if_pos h

theorem fromBe32_be32 (v : Word) : fromBe32 (be32 v) = some v := by
  rw [fromBe32_eq_some (be32_length v), bytesValue_be32, BitVec.ofNat_toNat, BitVec.setWidth_eq]

theorem be32_ofNat_bytesValue {bs : List Byte} (h : bs.length = 32) :
    be32 (BitVec.ofNat 256 (bytesValue bs)) = bs := by
  apply bytesValue_inj (by simp [h])
  rw [bytesValue_be32, BitVec.toNat_ofNat]
  apply Nat.mod_eq_of_lt
  calc bytesValue bs < 256 ^ bs.length := bytesValue_lt bs
    _ = 2 ^ 256 := by rw [h]; decide

theorem be32_bit (v : Word) {k j : Nat} (hk : k < 32) (hj : j < 8) :
    (be32 v)[k]?.map (fun x => x.getLsbD j) = some (v.getLsbD (248 - 8 * k + j)) := by
  simp [be32_getElem? v hk, hj]

theorem toNat_eq_sum_be32 (v : Word) :
    v.toNat = ((List.range 32).map fun k => ((be32 v)[k]?.getD 0#8).toNat * 256 ^ (31 - k)).sum := by
  simpa using bytesValue_eq_sum (be32 v)

/-- Settles O7: `be32` writes the base 256 digits of a value, which determine it and are determined by it. -/
theorem serialisationIsBigEndian : Obligations.SerialisationIsBigEndian := by
  refine ⟨fun v => ⟨be32_length v, fun k hk j hj => be32_bit v hk hj, fromBe32_be32 v, toNat_eq_sum_be32 v⟩, ?_, ?_⟩
  · intro bs h
    exact ⟨_, fromBe32_eq_some h, be32_ofNat_bytesValue h⟩
  · decide

end Sys2Proof
end

section
/-! The host's reads (R47): each appends one value of the registers to the record and changes nothing else. -/

namespace Sys2Proof.Machine

/-- One of the host's four reads (R61). -/
def HostAction.IsRead (act : HostAction) : Prop :=
  act = .read ∨ act = .readStatus ∨ act = .readResult ∨ ∃ rst, act = .readReady rst

/-- What a read gives the host, if there is a value; the other actions read nothing (R61). -/
def Block.valueRead (b : Block) : HostAction → Option Observation
  | .read => b.reply.map .reply
  | .readStatus => some (.status b.status)
  | .readResult => b.result.map .result
  | .readReady rst => some (.ready (b.inReady rst))
  | .edge _ => none
  | .issue _ => none
  | .wait => none

theorem readReply_next {s t : State} (h : readReply s = .next t) :
    ∃ r, s.block.reply = some r ∧ t = s.observe (.reply r) := by
  unfold readReply at h
  split at h
  · next r hr => exact ⟨r, hr, (Host.Outcome.next.inj h).symm⟩
  · cases h

theorem readResult_next {s t : State} (h : readResult s = .next t) :
    ∃ v, s.block.result = some v ∧ t = s.observe (.result v) := by
  unfold readResult at h
  split at h
  · next v hv => exact ⟨v, hv, (Host.Outcome.next.inj h).symm⟩
  · cases h

variable {s t : State} {act : HostAction} {rest : List HostAction}

/-- All that a read can do when it answers a next state: the host notes the value read. -/
theorem perform_read (hact : act.IsRead) (h : perform act rest s = .next t) :
    ∃ o, s.block.valueRead act = some o ∧ t = State.observe o { s with host := rest } := by
  obtain rfl | rfl | rfl | ⟨rst, rfl⟩ := hact
  · obtain ⟨r, hr, ht⟩ := readReply_next h
    exact ⟨.reply r, congrArg (Option.map Observation.reply) hr, ht⟩
  · exact ⟨_, rfl, (Host.Outcome.next.inj h).symm⟩
  · obtain ⟨v, hv, ht⟩ := readResult_next h
    exact ⟨.result v, congrArg (Option.map Observation.result) hv, ht⟩
  · exact ⟨_, rfl, (Host.Outcome.next.inj h).symm⟩

theorem valueRead_readResult {b : Block} {o : Observation} (h : b.valueRead .readResult = some o) :
    ∃ v, b.result = some v ∧ o = .result v := by
  obtain ⟨v, hv, rfl⟩ := Option.map_eq_some_iff.mp h
  exact ⟨v, hv, rfl⟩

theorem valueRead_read_ok {b : Block} {o : Observation} (he : b.err = 0b00#2) (h : b.valueRead .read = some o) :
    ∃ v, b.result = some v ∧ o = .reply (.ok v b.zero) := by
  simp only [Block.valueRead, Block.reply, he, if_true, Option.map_map] at h
  obtain ⟨v, hv, rfl⟩ := Option.map_eq_some_iff.mp h
  exact ⟨v, hv, rfl⟩

theorem valueRead_read_malformed {b : Block} (he : b.err ≠ 0b00#2) :
    b.valueRead .read = some (.reply (.malformed b.err)) := by
  simp [Block.valueRead, Block.reply, he]

/-- Settles O36: the frame of `observe`, and the value each read gives. -/
theorem readsHaveNoSideEffect : Obligations.ReadsHaveNoSideEffect := by
  intro s t act rest hh hact h
  rw [step_cons hh] at h
  obtain ⟨o, ho, rfl⟩ := perform_read hact h
  refine ⟨rfl, rfl, rfl, ?_, ?_, ?_, ?_⟩
  · rintro rfl
    obtain rfl := Option.some.inj ho
    rfl
  · rintro rst rfl
    obtain rfl := Option.some.inj ho
    rfl
  · rintro rfl
    obtain ⟨v, hv, rfl⟩ := valueRead_readResult ho
    exact ⟨v, hv, rfl⟩
  · rintro rfl
    constructor
    · intro he
      obtain ⟨v, hv, rfl⟩ := valueRead_read_ok he ho
      exact ⟨v, hv, rfl⟩
    · intro he
      obtain rfl := Option.some.inj ((valueRead_read_malformed he).symm.trans ho)
      rfl

end Sys2Proof.Machine
end

section
/-! Edges at which no command is accepted: the ports are ignored but for `rst` (R51, R69). -/

namespace Sys2Proof.Machine

/-- A command in flight does not see the ports: any edge without reset does the same (R51). -/
theorem clock_busy_eq {p q : Ports} {s : State} (hp : p.rst = false) (hq : q.rst = false) (hb : s.block.busy = true) :
    clock p s = clock q s := by
  by_cases hc : s.block.cnt = 0
  · simp only [clock, edgeKind_complete hp hb hc, edgeKind_complete hq hb hc]
  · rw [clock_wait hp hb hc, clock_wait hq hb hc]

/-- Settles O30: the waiting and idle branches of an edge. -/
theorem waitingAndIdleEdgesIgnoreThePorts : Obligations.WaitingAndIdleEdgesIgnoreThePorts :=
  fun _ _ hr => ⟨fun hb _ hq => clock_busy_eq hr hq hb, clock_wait hr, clock_idle hr⟩

end Sys2Proof.Machine
end

section
/-! The latches: which steps write them, and from which pins (R46, R48). -/

namespace Sys2Proof

@[simp] theorem frameA_encode (i : Instr) : frameA (encode i) = i.opA := by
  cases i <;> exact frameA_joinFrame ..

@[simp] theorem frameB_encode (i : Instr) : frameB (encode i) = i.opB := by
  cases i <;> exact frameB_joinFrame ..

namespace Machine

/-- `L_OP`, `L_A` and `L_B` together (R32). -/
def Block.latches (b : Block) : Option (BitVec 1) × Option Word × Option Word := (b.lOp, b.lA, b.lB)

section Writes
variable (b : Block) (lat : Nat) (p : Ports) (r : Response)

@[simp] theorem resetState_latches : Block.resetState.latches = (none, none, none) := rfl
@[simp] theorem accept_latches : (b.accept lat p).latches = (some p.inOp, some p.inA, some p.inB) := rfl
@[simp] theorem complete_latches : (b.complete r).latches = b.latches := rfl
@[simp] theorem countDown_latches : b.countDown.latches = b.latches := rfl

end Writes

variable {s t : State}

/-- All that one edge can do to the latches: keep them, clear them with `rst`, or sample its own pins while idle. -/
theorem clock_latches {p : Ports} (h : clock p s = .next t) :
    t.block.latches = s.block.latches ∨
    (p.rst = true ∧ t.block.latches = (none, none, none)) ∨
    (s.block.busy = false ∧ p.rst = false ∧ p.inValid = true ∧
      t.block.latches = (some p.inOp, some p.inA, some p.inB)) := by
  obtain ⟨hr, rfl⟩ | ⟨hr, hb, hv, rfl⟩ | ⟨-, -, -, i, -, rfl⟩ | ⟨-, -, -, rfl⟩ | ⟨-, -, -, rfl⟩ := clock_cases h
  · exact .inr (.inl ⟨hr, rfl⟩)
  · exact .inr (.inr ⟨hb, hr, hv, rfl⟩)
  · exact .inl (complete_latches ..)
  · exact .inl (countDown_latches ..)
  · exact .inl rfl

/-- The pins of the edge a step takes: those the host's next action drives, or none for a read. -/
theorem step_pins (h : step s = .next t) :
    t.block = s.block ∨
    (∃ p rest, s.host = .edge p :: rest ∧ clock p { s with host := rest } = .next t) ∨
    (∃ i rest l, s.host = .issue i :: rest ∧ clock (Ports.present i) { s with host := l } = .next t) ∨
    ∃ l, clock Ports.idle { s with host := l } = .next t := by
  cases hh : s.host with
  | nil => exact .inr (.inr (.inr ⟨s.host, step_nil hh ▸ h⟩))
  | cons act rest =>
    rw [step_cons hh] at h
    have block_of_read : act.IsRead → t.block = s.block := by
      intro hact
      obtain ⟨o, -, rfl⟩ := perform_read hact h
      rfl
    cases act with
    | edge p => exact .inr (.inl ⟨p, rest, rfl, h⟩)
    | issue i => exact .inr (.inr (.inl ⟨i, rest, _, rfl, h⟩))
    | wait =>
      simp only [perform] at h
      split at h
      · cases Host.Outcome.next.inj h
        exact .inl rfl
      · exact .inr (.inr (.inr ⟨_, h⟩))
    | read => exact .inl (block_of_read (by simp [HostAction.IsRead]))
    | readStatus => exact .inl (block_of_read (by simp [HostAction.IsRead]))
    | readResult => exact .inl (block_of_read (by simp [HostAction.IsRead]))
    | readReady rst => exact .inl (block_of_read (by simp [HostAction.IsRead]))

/-- A step keeps the latches, clears them at a reset edge, or samples all three from one edge's pins or one issued command. -/
theorem step_latches (h : step s = .next t) :
    t.block.latches = s.block.latches ∨
    (t.block.latches = (none, none, none) ∧ ∃ p rest, s.host = .edge p :: rest ∧ p.rst = true) ∨
    (s.block.busy = false ∧ ∃ p rest, s.host = .edge p :: rest ∧ p.rst = false ∧ p.inValid = true ∧
      t.block.latches = (some p.inOp, some p.inA, some p.inB)) ∨
    (s.block.busy = false ∧ ∃ i rest, s.host = .issue i :: rest ∧
      t.block.latches = (some (frameOp (encode i)), some i.opA, some i.opB)) := by
  obtain ht | ⟨p, rest, hh, hc⟩ | ⟨i, rest, l, hh, hc⟩ | ⟨l, hc⟩ := step_pins h
  · exact .inl (congrArg Block.latches ht)
  · obtain hkeep | ⟨hr, hclear⟩ | ⟨hb, hr, hv, hsample⟩ := clock_latches hc
    · exact .inl hkeep
    · exact .inr (.inl ⟨hclear, p, rest, hh, hr⟩)
    · exact .inr (.inr (.inl ⟨hb, p, rest, hh, hr, hv, hsample⟩))
  · obtain hkeep | ⟨hr, -⟩ | ⟨hb, -, -, hsample⟩ := clock_latches hc
    · exact .inl hkeep
    · cases hr
    · exact .inr (.inr (.inr ⟨hb, i, rest, hh, by simpa [Ports.present] using hsample⟩))
  · obtain hkeep | ⟨hr, -⟩ | ⟨-, -, hv, -⟩ := clock_latches hc
    · exact .inl hkeep
    · cases hr
    · cases hv

/-- Settles O46, from the pins of a step and what an edge does to the latches. -/
theorem commandsAreSampledWholeAtOneEdge : Obligations.CommandsAreSampledWholeAtOneEdge := by
  intro s t h
  simpa [Block.latches, and_assoc] using step_latches h

/-- Settles O47: of the writes a step can make, only an acceptance samples a command, and it needs an idle block. -/
theorem oneCommandIsInFlightAtATime : Obligations.OneCommandIsInFlightAtATime := by
  intro s t h hb
  obtain ht | ht | ⟨hidle, -⟩ | ⟨-, -, i, -, ht⟩ | ⟨-, -, ht⟩ := step_block_cases h
  · exact .inl (by simp [ht])
  · exact .inr ht
  · simp [hb] at hidle
  · exact .inl (by simp [ht])
  · exact .inl (by simp [ht])

end Machine
end Sys2Proof
end

section
/-! The decoder and the encoder are inverse to each other, a frame is decoded by its bit 512 and its two operand fields, and a
number is a frame exactly when it has no bit above bit 512 (R53, R54, R60, R66). -/

namespace Sys2Proof

/-! ### Encoding what was decoded -/

theorem decodeFrame_of_op_zero {w : Frame} (h : frameOp w = 0#1) : decodeFrame w = .add (frameA w) (frameB w) := if_pos h

theorem decodeFrame_of_op_one {w : Frame} (h : frameOp w = 1#1) : decodeFrame w = .sub (frameA w) (frameB w) :=
  if_neg (by rw [h]; decide)

@[simp] theorem encode_decodeFrame (w : Frame) : encode (decodeFrame w) = w := by
  obtain h | h := BitVec.eq_zero_or_eq_one (frameOp w)
  · rw [decodeFrame_of_op_zero h, encode, ← h, joinFrame_fields]
  · rw [decodeFrame_of_op_one h, encode, ← h, joinFrame_fields]

/-! ### Numbers as frames -/

theorem shiftRight_eq_zero_iff_lt {n k : Nat} : n >>> k = 0 ↔ n < 2 ^ k := by
  rw [Nat.shiftRight_eq_div_pow, Nat.div_eq_zero_iff_lt (Nat.two_pow_pos k)]

theorem toNat_shiftRight_eq_zero {k n : Nat} (w : BitVec k) (h : k ≤ n) : w.toNat >>> n = 0 :=
  shiftRight_eq_zero_iff_lt.mpr (w.isLt.trans_le (Nat.pow_le_pow_right Nat.two_pos h))

theorem decodeNat_of_lt {n : Nat} (h : n < 2 ^ 513) : decodeNat n = .ok (decodeFrame (BitVec.ofNat 513 n)) := by
  rw [decodeNat, if_pos (shiftRight_eq_zero_iff_lt.mpr h), frameOfNat_eq]

theorem decodeNat_of_le {n : Nat} (h : 2 ^ 513 ≤ n) : decodeNat n = .error .bitAboveFrame :=
  if_neg fun h0 => Nat.not_lt.mpr h (shiftRight_eq_zero_iff_lt.mp h0)

theorem frameOfNat_toNat (w : Frame) : frameOfNat w.toNat = w := by
  rw [frameOfNat_eq, BitVec.ofNat_toNat, BitVec.setWidth_eq]

/-- The number of a frame decodes as the frame does. -/
theorem decodeNat_toNat (w : Frame) : decodeNat w.toNat = .ok (decodeFrame w) := by
  rw [decodeNat, if_pos (toNat_shiftRight_eq_zero w (Nat.le_refl 513)), frameOfNat_toNat]

theorem decodeTableWord_toNat (w : Frame) {nbits : Nat} (h : 513 ≤ nbits) :
    decodeTableWord nbits w.toNat = some (decodeFrame w) := by
  rw [decodeTableWord, if_pos (toNat_shiftRight_eq_zero w h), decodeNat_toNat]

/-- Settles O3: a frame is the join of its fields, and its number has no bit above bit 512. -/
theorem decodeAndEncodeAreInverse : Obligations.DecodeAndEncodeAreInverse := by
  refine ⟨decodeFrame_encode, encode_decodeFrame, fun i => ?_⟩
  rw [decodeTableWord_toNat _ (by decide), decodeFrame_encode]

/-- Settles O4: the two sides of the bound on a frame's number. That a longer number is refused is the model's choice (log
entry 10). -/
theorem decoderRefusesExactlyNonFrames : Obligations.DecoderRefusesExactlyNonFrames :=
  fun _ => ⟨decodeNat_of_le, decodeNat_of_lt⟩

/-! ### The fields of a frame as arithmetic on its value -/

theorem frameOp_eq_zero_iff {w : Frame} : frameOp w = 0#1 ↔ w.getLsbD 512 = false := by
  have hbit : w.getLsbD 512 = (frameOp w).getLsbD 0 := by simp [frameOp]
  rw [hbit]
  obtain h | h := BitVec.eq_zero_or_eq_one (frameOp w) <;> rw [h] <;> decide

theorem frameA_eq (w : Frame) : frameA w = BitVec.ofNat 256 (w.toNat / 2 ^ 256) := by
  rw [frameA, BitVec.extractLsb', Nat.shiftRight_eq_div_pow]

theorem frameB_eq (w : Frame) : frameB w = BitVec.ofNat 256 w.toNat := rfl

theorem decodeFrame_eq_arithmetic (w : Frame) :
    decodeFrame w =
      if w.getLsbD 512 = false then .add (BitVec.ofNat 256 (w.toNat / 2 ^ 256)) (BitVec.ofNat 256 w.toNat)
      else .sub (BitVec.ofNat 256 (w.toNat / 2 ^ 256)) (BitVec.ofNat 256 w.toNat) := by
  simp only [decodeFrame, frameOp_eq_zero_iff, frameA_eq, frameB_eq]

/-! ### The rows of the opcode table -/

theorem opcodeMask_ne_zero : opcodeMask ≠ 0#513 := by
  intro h
  have hbit := congrArg (BitVec.getLsbD · 512) h
  simp [opcodeMask] at hbit

theorem and_opcodeMask (w : Frame) : w &&& opcodeMask = if frameOp w = 0#1 then 0#513 else opcodeMask := by
  rw [← joinFrame_fields w, Laws.OpcodeRow.mask_joinFrame, joinFrame_fields, opcodeMask]

theorem and_opcodeMask_eq_zero_iff {w : Frame} : w &&& opcodeMask = 0#513 ↔ ∃ a b, decodeFrame w = .add a b := by
  rw [and_opcodeMask]
  obtain h | h := BitVec.eq_zero_or_eq_one (frameOp w)
  · simp [h, decodeFrame_of_op_zero h]
  · simp [h, decodeFrame_of_op_one h, opcodeMask_ne_zero]

theorem and_opcodeMask_eq_self_iff {w : Frame} : w &&& opcodeMask = opcodeMask ↔ ∃ a b, decodeFrame w = .sub a b := by
  rw [and_opcodeMask]
  obtain h | h := BitVec.eq_zero_or_eq_one (frameOp w)
  · simp [h, decodeFrame_of_op_zero h, opcodeMask_ne_zero.symm]
  · simp [h, decodeFrame_of_op_one h]

/-- Settles O2: the fields of a frame as arithmetic on its value, and the masked frame of each row. -/
theorem frameDecodesByItsOpBit : Obligations.FrameDecodesByItsOpBit :=
  fun w => ⟨decodeFrame_eq_arithmetic w, and_opcodeMask_eq_zero_iff, and_opcodeMask_eq_self_iff⟩

end Sys2Proof
end

section
/-! Numerals (R14): the number a list of digits spells, and the digits written for a number. -/

namespace Sys2Proof

/-! ### Reading digits -/

section Reading
variable {base : Nat} {digit : Char → Option Nat}

@[simp] theorem digitsValue_nil (acc : Nat) : digitsValue base digit acc [] = some acc := rfl

theorem digitsValue_cons (acc : Nat) (c : Char) (cs : List Char) :
    digitsValue base digit acc (c :: cs) = (digit c).bind fun d => digitsValue base digit (acc * base + d) cs := by
  rw [digitsValue]
  cases digit c <;> rfl

theorem digitsValue_append (acc : Nat) (cs ds : List Char) :
    digitsValue base digit acc (cs ++ ds) =
      (digitsValue base digit acc cs).bind fun v => digitsValue base digit v ds := by
  induction cs generalizing acc with
  | nil => rfl
  | cons c cs ih => simp only [List.cons_append, digitsValue_cons, ih, Option.bind_assoc]

/-- A numeral of `n` digits after `acc` lies below `(acc + 1) * base ^ n`. -/
theorem digitsValue_lt (hdigit : ∀ {c d}, digit c = some d → d < base) {ds : List Char} {acc v : Nat}
    (h : digitsValue base digit acc ds = some v) : v < (acc + 1) * base ^ ds.length := by
  induction ds generalizing acc with
  | nil =>
    obtain rfl := Option.some.inj h
    simp
  | cons c ds ih =>
    rw [digitsValue_cons] at h
    obtain ⟨d, hd, h⟩ := Option.bind_eq_some_iff.mp h
    calc v < (acc * base + d + 1) * base ^ ds.length := ih h
      _ ≤ (acc * base + base) * base ^ ds.length := Nat.mul_le_mul_right _ (Nat.add_le_add_left (hdigit hd) _)
      _ = (acc + 1) * base ^ (ds.length + 1) := by ring

end Reading

theorem hexDigit_lt {c : Char} {d : Nat} (h : hexDigit c = some d) : d < 16 := by
  simp only [hexDigit] at h
  split_ifs at h <;> (cases h; omega)

/-! ### Writing digits -/

theorem hexDigit_hexChar {d : Nat} (h : d < 16) : hexDigit (hexChar d) = some d := by
  have hall : ∀ d : Fin 16, hexDigit (hexChar d) = some d.val := by decide
  exact hall ⟨d, h⟩

/-- The written digits of a number are read back as its low `n` digits. -/
theorem digitsValue_hexDigits (acc n v : Nat) :
    digitsValue 16 hexDigit acc (hexDigits n v) = some (acc * 16 ^ n + v % 16 ^ n) := by
  induction n generalizing v with
  | zero => simp [hexDigits, Nat.mod_one]
  | succ n ih =>
    have hdigit : hexDigit (hexChar (v % 16)) = some (v % 16) := hexDigit_hexChar (Nat.mod_lt v (by decide))
    rw [hexDigits_succ, digitsValue_append, ih, Option.bind_some, digitsValue_cons, hdigit, Option.bind_some,
      digitsValue_nil, Nat.pow_succ', Nat.mod_mul]
    congr 1
    ring

/-- 64 digits hold a whole operand. -/
theorem digitsValue_hexDigits_word (acc : Nat) (v : Word) :
    digitsValue 16 hexDigit acc (hexDigits 64 v.toNat) = some (acc * 2 ^ 256 + v.toNat) := by
  have hpow : 16 ^ 64 = 2 ^ 256 := by decide
  rw [digitsValue_hexDigits, hpow, Nat.mod_eq_of_lt v.isLt]

theorem hexDigit_isSome_of_mem_hexDigits {c : Char} {n v : Nat} (h : c ∈ hexDigits n v) : (hexDigit c).isSome = true := by
  obtain ⟨k, -, rfl⟩ := List.mem_map.mp h
  rw [hexDigit_hexChar (Nat.mod_lt _ (by decide))]
  rfl

end Sys2Proof
end

section
/-! The hexadecimal text of a frame (R65): its digits are those of the three fields, and they spell the frame's value. -/

namespace Sys2Proof

theorem joinFrame_toNat (op : BitVec 1) (a b : Word) :
    (joinFrame op a b).toNat = (op.toNat * 2 ^ 256 + a.toNat) * 2 ^ 256 + b.toNat := by
  rw [joinFrame, BitVec.toNat_cast, BitVec.toNat_append, BitVec.toNat_append, ← Nat.shiftLeft_add_eq_or_of_lt b.isLt,
    ← Nat.shiftLeft_add_eq_or_of_lt a.isLt, Nat.shiftLeft_eq, Nat.shiftLeft_eq]

theorem encode_toNat (i : Instr) :
    (encode i).toNat = ((frameOp (encode i)).toNat * 2 ^ 256 + i.opA.toNat) * 2 ^ 256 + i.opB.toNat := by
  cases i <;> simp only [encode, frameOp_joinFrame, joinFrame_toNat, Instr.opA, Instr.opB]

/-- The 129 digits of a command's text: `op`, then its two operands. -/
def frameDigits (i : Instr) : List Char := Claims.opDigit i :: (hexDigits 64 i.opA.toNat ++ hexDigits 64 i.opB.toNat)

theorem hexDigits_frameOp (i : Instr) : hexDigits 1 (frameOp (encode i)).toNat = [Claims.opDigit i] := by
  cases i <;> rw [encode, frameOp_joinFrame] <;> rfl

theorem encodeHex_eq (i : Instr) : encodeHex i = '0' :: 'x' :: frameDigits i := by
  rw [encodeHex, hexDigits_frameOp]
  rfl

@[simp] theorem frameDigits_length (i : Instr) : (frameDigits i).length = 129 := by
  simp [frameDigits, hexDigits_length]

theorem frameDigits_tail_take (i : Instr) : (frameDigits i).tail.take 64 = hexDigits 64 i.opA.toNat :=
  List.take_left' (hexDigits_length 64 _)

theorem frameDigits_tail_drop (i : Instr) : (frameDigits i).tail.drop 64 = hexDigits 64 i.opB.toNat :=
  List.drop_left' (hexDigits_length 64 _)

theorem digitsValue_frameDigits (i : Instr) : digitsValue 16 hexDigit 0 (frameDigits i) = some (encode i).toNat := by
  have hop : hexDigit (Claims.opDigit i) = some (frameOp (encode i)).toNat := by
    cases i <;> rw [encode, frameOp_joinFrame] <;> rfl
  rw [frameDigits, digitsValue_cons, hop, Option.bind_some, digitsValue_append, digitsValue_hexDigits_word,
    Option.bind_some, digitsValue_hexDigits_word, encode_toNat, Nat.zero_mul, Nat.zero_add]

/-- 129 digits that spell the value of a frame are read as that frame. -/
theorem decodeHexDigits_of_spells {ds : List Char} {w : Frame} (hlen : ds.length = 129)
    (h : digitsValue 16 hexDigit 0 ds = some w.toNat) : decodeHexDigits ds = .ok (decodeFrame w) := by
  simp only [decodeHexDigits, ne_eq, hlen, not_true_eq_false, if_false, h,
    toNat_shiftRight_eq_zero w (Nat.le_refl 513), if_true, frameOfNat_toNat]

theorem decodeHex_encodeHex (i : Instr) : decodeHex (encodeHex i) = .ok i := by
  rw [encodeHex_eq, decodeHex, decodeHexDigits_of_spells (frameDigits_length i) (digitsValue_frameDigits i),
    decodeFrame_encode]

/-- Settles O5: the digits of the text, field by field and as a whole. -/
theorem frameTextSpellsTheFrame : Obligations.FrameTextSpellsTheFrame := by
  intro i
  refine ⟨frameDigits i, encodeHex_eq i, frameDigits_length i, rfl, ?_, ?_, digitsValue_frameDigits i,
    decodeHex_encodeHex i⟩
  · rw [frameDigits_tail_take, digitsValue_hexDigits_word, Nat.zero_mul, Nat.zero_add]
  · rw [frameDigits_tail_drop, digitsValue_hexDigits_word, Nat.zero_mul, Nat.zero_add]

end Sys2Proof
end

section
/-! The literals of the assembler (R61). -/

namespace Sys2Proof.Machine

variable {ds : List Char} {v : Nat}

/-- At most 64 hexadecimal digits spell less than `2^256`. -/
theorem digitsValue_hex_lt (h : digitsValue 16 hexDigit 0 ds = some v) (hlen : ds.length ≤ 64) : v < 2 ^ 256 :=
  calc v < (0 + 1) * 16 ^ ds.length := digitsValue_lt hexDigit_lt h
    _ ≤ (0 + 1) * 16 ^ 64 := Nat.mul_le_mul_left _ (Nat.pow_le_pow_right (by decide) hlen)
    _ = 2 ^ 256 := by decide

theorem literal_hex (h : digitsValue 16 hexDigit 0 ds = some v) (hpos : 1 ≤ ds.length) (hlen : ds.length ≤ 64) :
    literal ('0' :: 'x' :: ds) = some (BitVec.ofNat 256 v) := by
  simp only [literal, hpos, hlen, and_self, if_true, h, digitsValue_hex_lt h hlen]

theorem literal_hex_of_length (h : ds.length = 0 ∨ 64 < ds.length) : literal ('0' :: 'x' :: ds) = none := by
  have hlen : ¬(1 ≤ ds.length ∧ ds.length ≤ 64) := by omega
  simp only [literal, hlen, if_false]

/-- Decimal digits do not begin with `0x`, since `x` is none. -/
theorem literal_decimal (h : digitsValue 10 decDigit 0 ds = some v) (hpos : 1 ≤ ds.length) :
    literal ds = if v < 2 ^ 256 then some (BitVec.ofNat 256 v) else none := by
  have hne : ds ≠ [] := List.ne_nil_of_length_pos hpos
  unfold literal
  split
  · cases h
  · simp only [hne, if_false, h]

/-- Settles O9: hexadecimal digits in number and out of it, and decimal digits. -/
theorem literalsDenote256BitValues : Obligations.LiteralsDenote256BitValues :=
  fun _ _ => ⟨fun h hpos hlen => ⟨digitsValue_hex_lt h hlen, literal_hex h hpos hlen⟩, literal_hex_of_length,
    literal_decimal⟩

end Sys2Proof.Machine
end

section
/-! The disassembler's lines (R61): where a line is cut into its word and its operands, and that each part is read back. -/

namespace Sys2Proof.Machine

/-! ### Cutting a text at a character -/

section Cutting
variable {c : Char} {pre : List Char}

theorem takeWhile_ne_append (h : c ∉ pre) (post : List Char) : (pre ++ c :: post).takeWhile (· != c) = pre := by
  have hpre : ∀ x ∈ pre, (x != c) = true := fun x hx => bne_iff_ne.mpr (ne_of_mem_of_not_mem hx h)
  rw [List.takeWhile_append_of_pos hpre]
  simp

theorem dropWhile_ne_append (h : c ∉ pre) (post : List Char) : (pre ++ c :: post).dropWhile (· != c) = c :: post := by
  have hpre : ∀ x ∈ pre, (x != c) = true := fun x hx => bne_iff_ne.mpr (ne_of_mem_of_not_mem hx h)
  rw [List.dropWhile_append_of_pos hpre]
  simp

end Cutting

/-! ### The text of a literal -/

theorem not_mem_literalText {c : Char} (hx : c ≠ 'x') (hdigit : hexDigit c = none) (v : Word) : c ∉ literalText v := by
  intro h
  obtain rfl | h := List.mem_cons.mp h
  · cases hdigit
  obtain rfl | h := List.mem_cons.mp h
  · exact hx rfl
  · simpa [hdigit] using hexDigit_isSome_of_mem_hexDigits h

theorem space_not_mem_literalText (v : Word) : ' ' ∉ literalText v := not_mem_literalText (by decide) rfl v

theorem comma_not_mem_literalText (v : Word) : ',' ∉ literalText v := not_mem_literalText (by decide) rfl v

theorem literal_literalText (v : Word) : literal (literalText v) = some v := by
  have hlen := hexDigits_length 64 v.toNat
  have hvalue : digitsValue 16 hexDigit 0 (hexDigits 64 v.toNat) = some v.toNat := by
    rw [digitsValue_hexDigits_word, Nat.zero_mul, Nat.zero_add]
  rw [literalText, literal_hex hvalue (by omega) (by omega), BitVec.ofNat_toNat, BitVec.setWidth_eq]

/-! ### Spaces at the ends of a text -/

theorem trim_space_cons (cs : List Char) : trim (' ' :: cs) = trim cs := rfl

/-- A text that begins with no space and ends with a literal has no space to lose. -/
theorem trim_of_literalText_suffix {c : Char} {cs : List Char} {v : Word} (hc : c ≠ ' ')
    (h : literalText v <:+ c :: cs) : trim (c :: cs) = c :: cs := by
  have hfirst : (c :: cs).dropWhile (· == ' ') = c :: cs := by simp [hc]
  have hlast : (c :: cs).getLast (List.cons_ne_nil c cs) ≠ ' ' := by
    rw [← h.getLast (List.cons_ne_nil _ _)]
    exact ne_of_mem_of_not_mem (List.getLast_mem _) (space_not_mem_literalText v)
  rw [trim, hfirst]
  exact List.rdropWhile_eq_self_iff.mpr fun _ => by simpa using hlast

theorem trim_literalText (v : Word) : trim (literalText v) = literalText v :=
  trim_of_literalText_suffix (by decide) (List.suffix_refl _)

/-! ### Two operands -/

/-- Two operands as the disassembler prints them. -/
def operandsText (a b : Word) : List Char := literalText a ++ ',' :: ' ' :: literalText b

theorem literalText_suffix_operandsText (a b : Word) : literalText b <:+ operandsText a b :=
  ⟨literalText a ++ [',', ' '], by simp [operandsText]⟩

theorem trim_operandsText (a b : Word) : trim (operandsText a b) = operandsText a b :=
  trim_of_literalText_suffix (by decide) (literalText_suffix_operandsText a b)

theorem operands2_operandsText (a b : Word) : operands2 (operandsText a b) = some (a, b) := by
  have hcomma := comma_not_mem_literalText a
  simp only [operands2, operandsText, dropWhile_ne_append hcomma, takeWhile_ne_append hcomma, trim_space_cons,
    trim_literalText, literal_literalText]

/-! ### A whole line -/

/-- The word the disassembler begins a line with. -/
def mnemonic : Instr → List Char
  | .add _ _ => ['A', 'D', 'D']
  | .sub _ _ => ['S', 'U', 'B']

theorem space_not_mem_mnemonic (i : Instr) : ' ' ∉ mnemonic i := by
  cases i <;> simp [mnemonic]

theorem disassemble_eq (i : Instr) : disassemble i = mnemonic i ++ ' ' :: operandsText i.opA i.opB := by
  cases i <;> rfl

theorem trim_disassemble (i : Instr) : trim (disassemble i) = disassemble i := by
  have hsuffix : literalText i.opB <:+ disassemble i := by
    rw [disassemble_eq]
    exact (literalText_suffix_operandsText _ _).trans ((List.suffix_cons ' ' _).trans (List.suffix_append _ _))
  cases i <;> exact trim_of_literalText_suffix (by decide) hsuffix

theorem disassemble_word (i : Instr) : (disassemble i).takeWhile (· != ' ') = mnemonic i := by
  rw [disassemble_eq, takeWhile_ne_append (space_not_mem_mnemonic i)]

theorem disassemble_operands (i : Instr) :
    trim ((disassemble i).dropWhile (· != ' ')) = operandsText i.opA i.opB := by
  rw [disassemble_eq, dropWhile_ne_append (space_not_mem_mnemonic i), trim_space_cons, trim_operandsText]

theorem assembleLine_disassemble (i : Instr) : assembleLine (disassemble i) = some (.issue i) := by
  simp only [assembleLine, trim_disassemble, disassemble_word, disassemble_operands, operands2_operandsText]
  cases i <;> rfl

/-- Settles O8: each part of a printed line is read back, and so its frame. The printed form is the model's choice (log entry
12). -/
theorem assembleUndoesDisassemble : Obligations.AssembleUndoesDisassemble :=
  fun i => ⟨assembleLine_disassemble i, by rw [assemble, assembleLine_disassemble]⟩

end Sys2Proof.Machine
end

section
/-! Legal operands (R56, R57): which operands are field elements, and the mask and the outcome of a command by its operands. -/

namespace Sys2Proof

open Machine

/-! ### Field elements -/

theorem isFieldElement_iff {v : Word} : isFieldElement v = true ↔ v.toNat < Config.fieldPrime := decide_eq_true_iff

theorem isFieldElement_eq_false_iff {v : Word} : isFieldElement v = false ↔ Config.fieldPrime ≤ v.toNat := by
  rw [← Bool.not_eq_true, isFieldElement_iff, Nat.not_lt]

theorem wellFormed_iff {i : Instr} :
    i.wellFormed = true ↔ i.opA.toNat < Config.fieldPrime ∧ i.opB.toNat < Config.fieldPrime := by
  rw [Instr.wellFormed, Bool.and_eq_true, isFieldElement_iff, isFieldElement_iff]

theorem wellFormed_eq_false_iff {i : Instr} :
    i.wellFormed = false ↔ Config.fieldPrime ≤ i.opA.toNat ∨ Config.fieldPrime ≤ i.opB.toNat := by
  rw [← Bool.not_eq_true, wellFormed_iff, Decidable.not_and_iff_or_not, Nat.not_lt, Nat.not_lt]

theorem fieldPrime_le_of_topBits {v : Word} (h : v.extractLsb' 252 4 ≠ 0b0000#4) : Config.fieldPrime ≤ v.toNat :=
  Nat.not_lt.mp fun hlt => h (topBits_of_lt_fieldPrime hlt)

/-- Settles O11: a field element has its top bits zero. -/
theorem topBitsPutAnOperandOutOfRange : Obligations.TopBitsPutAnOperandOutOfRange :=
  fun _ => ⟨fun h => ⟨fieldPrime_le_of_topBits h, isFieldElement_eq_false_iff.mpr (fieldPrime_le_of_topBits h)⟩,
    fun _ => isFieldElement_eq_false_iff⟩

namespace Machine

/-! ### The mask of a command -/

theorem errMask_getLsbD_zero (a b : Word) : (errMask a b).getLsbD 0 = outOfRange a := by
  rw [errMask, BitVec.getLsbD_cast]
  simp only [BitVec.getLsbD_append]
  simp

theorem errMask_getLsbD_one (a b : Word) : (errMask a b).getLsbD 1 = outOfRange b := by
  rw [errMask, BitVec.getLsbD_cast]
  simp only [BitVec.getLsbD_append]
  simp

theorem outOfRange_eq_false {v : Word} (h : v.toNat < Config.fieldPrime) : outOfRange v = false :=
  decide_eq_false (Nat.not_le.mpr h)

theorem checked_err (f : Nat → Nat → Nat) (a b : Word) : (checked f a b).err = errMask a b := by
  by_cases h : errMask a b = 0#2 <;> simp [checked, h]

/-- `ERR` is the mask of the operands, on success too (R70). -/
theorem execute_err (i : Instr) : (execute i).err = errMask i.opA i.opB := by
  cases i <;> exact checked_err ..

/-! ### The outcome of a command -/

/-- The arithmetic of a command (R79, R82). -/
def arithmetic : Instr → Nat
  | .add a b => addMod a.toNat b.toNat
  | .sub a b => subMod a.toNat b.toNat

theorem execute_of_wellFormed {i : Instr} (h : i.wellFormed = true) : execute i = success (arithmetic i) := by
  obtain ⟨ha, hb⟩ := wellFormed_iff.mp h
  cases i <;> exact checked_of_inRange ha hb

theorem execute_of_not_wellFormed {i : Instr} (h : i.wellFormed = false) :
    execute i = malformedInput (errMask i.opA i.opB) := by
  have hout := wellFormed_eq_false_iff.mp h
  cases i <;> exact checked_of_outOfRange hout

theorem errMask_ne_zero_of_not_wellFormed {i : Instr} (h : i.wellFormed = false) : errMask i.opA i.opB ≠ 0#2 :=
  errMask_ne_zero (wellFormed_eq_false_iff.mp h)

/-- A result is a field element (R78). -/
theorem execute_result_lt {i : Instr} {r : Word} (h : (execute i).result = some r) : r.toNat < Config.fieldPrime := by
  obtain ⟨n, hn, hi⟩ | ⟨m, -, hi⟩ := execute_cases i <;> rw [hi] at h
  · obtain rfl := Option.some.inj h
    rwa [toNat_ofNat_of_lt_fieldPrime hn]
  · cases h

/-- The one next state of a completing command. -/
theorem exec_next {i : Instr} {s t : State} (h : exec i s = .next t) : t = s.complete (execute i) :=
  (Host.Outcome.next.inj ((exec_eq i s).symm.trans h)).symm

/-- Settles O25: an idle block accepts without looking at the operands, and the range check decides the outcome. -/
theorem legalCommandsAreThoseThatSucceed : Obligations.LegalCommandsAreThoseThatSucceed := by
  intro i s
  refine ⟨wellFormed_iff, fun hb => ⟨_, clock_accept rfl hb rfl, by simp, rfl⟩, _, exec_eq i s, fun h => ?_, fun h => ?_⟩
  · simp [execute_of_wellFormed h]
  · simp [execute_of_not_wellFormed h, errMask_ne_zero_of_not_wellFormed h]

/-- Settles O26: a result is a field element, and each bit of the mask is the check of its own operand. -/
theorem resultsAreAcceptableOperands : Obligations.ResultsAreAcceptableOperands := by
  intro i j s t u v r hi hr hj
  obtain rfl := exec_next hi
  obtain rfl := exec_next hj
  have hrange : outOfRange r = false := outOfRange_eq_false (execute_result_lt hr)
  simp only [State.complete_block, complete_err, execute_err, errMask_getLsbD_zero, errMask_getLsbD_one]
  exact ⟨fun ha => ha ▸ hrange, fun hb => hb ▸ hrange⟩

end Machine
end Sys2Proof
end

section
/-! The completion of a command in the terms of the claims, and the pseudo-instructions (R62). -/

namespace Sys2Proof.Machine

open Claims

/-! ### Completions -/

theorem completesOk_of_wellFormed {i : Instr} (h : i.wellFormed = true) (s : State) :
    CompletesOk i s (word (arithmetic i)) (decide (arithmetic i = 0)) := by
  rw [CompletesOk, exec_eq, execute_of_wellFormed h]
  rfl

theorem completesMalformed_of_not_wellFormed {i : Instr} (h : i.wellFormed = false) (s : State) :
    CompletesMalformed i s (errMask i.opA i.opB) := by
  rw [CompletesMalformed, exec_eq, execute_of_not_wellFormed h]
  rfl

/-! ### Arithmetic of field elements -/

theorem addMod_zero {a : Nat} (ha : a < Config.fieldPrime) : addMod a 0 = a := Nat.mod_eq_of_lt ha

/-- The difference of two field elements with its one conditional addition (R84). -/
theorem subMod_eq {a b : Nat} (ha : a < Config.fieldPrime) (hb : b < Config.fieldPrime) :
    subMod a b = if b ≤ a then a - b else a + Config.fieldPrime - b := by
  unfold subMod
  split
  · rw [Int.emod_eq_of_lt (by omega) (by omega)]
    omega
  · rw [← Int.add_emod_right, Int.emod_eq_of_lt (by omega) (by omega)]
    omega

theorem subMod_zero_left {b : Nat} (hb : b < Config.fieldPrime) :
    subMod 0 b = if b = 0 then 0 else Config.fieldPrime - b := by
  rw [subMod_eq fieldPrime_pos hb]
  simp

theorem subMod_eq_zero_iff {a b : Nat} (ha : a < Config.fieldPrime) (hb : b < Config.fieldPrime) :
    subMod a b = 0 ↔ a = b := by
  rw [subMod_eq ha hb]
  split <;> omega

/-! ### Pseudo-instructions -/

section Pseudo
variable {a b : Word} (s : State)

theorem neg_completes (hb : b.toNat < Config.fieldPrime) :
    CompletesOk (Pseudo.neg b).expand s (if b.toNat = 0 then word 0 else word (Config.fieldPrime - b.toNat))
      (decide (b.toNat = 0)) := by
  have h := completesOk_of_wellFormed (i := (Pseudo.neg b).expand) (wellFormed_iff.mpr ⟨fieldPrime_pos, hb⟩) s
  have hvalue : arithmetic (Pseudo.neg b).expand = subMod 0 b.toNat := rfl
  have hzero : subMod 0 b.toNat = 0 ↔ b.toNat = 0 := (subMod_eq_zero_iff fieldPrime_pos hb).trans eq_comm
  simp only [hvalue, hzero] at h
  rwa [subMod_zero_left hb, apply_ite word] at h

theorem dbl_completes (ha : a.toNat < Config.fieldPrime) :
    CompletesOk (Pseudo.dbl a).expand s (word ((2 * a.toNat) % Config.fieldPrime))
      (decide ((2 * a.toNat) % Config.fieldPrime = 0)) := by
  rw [Nat.two_mul]
  exact completesOk_of_wellFormed (i := .add a a) (wellFormed_iff.mpr ⟨ha, ha⟩) s

theorem tst_completes (ha : a.toNat < Config.fieldPrime) :
    CompletesOk (Pseudo.tst a).expand s a (decide (a.toNat = 0)) := by
  have h := completesOk_of_wellFormed (i := .add a 0#256) (wellFormed_iff.mpr ⟨ha, fieldPrime_pos⟩) s
  have hvalue : arithmetic (.add a 0#256) = a.toNat := addMod_zero ha
  rwa [hvalue, word, BitVec.ofNat_toNat, BitVec.setWidth_eq] at h

theorem tst_malformed (ha : Config.fieldPrime ≤ a.toNat) : CompletesMalformed (Pseudo.tst a).expand s 0b01#2 := by
  have hmask : errMask a 0#256 = 0b01#2 := by
    rw [errMask, show outOfRange a = true from decide_eq_true ha]
    decide
  rw [← hmask]
  exact completesMalformed_of_not_wellFormed (i := .add a 0#256) (wellFormed_eq_false_iff.mpr (.inl ha)) s

theorem eq_completes (ha : a.toNat < Config.fieldPrime) (hb : b.toNat < Config.fieldPrime) :
    CompletesOk (Pseudo.eq a b).expand s (word (subMod a.toNat b.toNat)) (decide (a = b)) := by
  have h := completesOk_of_wellFormed (i := .sub a b) (wellFormed_iff.mpr ⟨ha, hb⟩) s
  have hzero : arithmetic (.sub a b) = 0 ↔ a = b := (subMod_eq_zero_iff ha hb).trans BitVec.toNat_inj
  rwa [decide_eq_decide.mpr hzero] at h

end Pseudo

/-- Settles O10: the completion of the command each pseudo-instruction expands to. -/
theorem pseudoInstructionsRespondAsTabulated : Obligations.PseudoInstructionsRespondAsTabulated :=
  ⟨fun _ => rfl, fun _ => rfl, fun _ => rfl, fun _ _ => rfl, fun _ _ s =>
    ⟨neg_completes s, dbl_completes s, tst_completes s, tst_malformed s, fun ha hb => ⟨_, eq_completes s ha hb⟩⟩⟩

end Sys2Proof.Machine
end

section
/-! The laws of arithmetic modulo the field prime (R78, R80, R83), read off the two commands' remainders. -/

namespace Sys2Proof.Machine

open Claims
open Config (fieldPrime)

/-! ### The values as remainders -/

theorem natCast_addMod (a b : Nat) : (addMod a b : Int) = ((a : Int) + b) % fieldPrime := by
  simp [addMod]

theorem natCast_subMod (a b : Nat) : (subMod a b : Int) = ((a : Int) - b) % fieldPrime :=
  Int.toNat_of_nonneg (Int.emod_nonneg _ (Int.natCast_ne_zero.mpr fieldPrime_pos.ne'))

/-- The value of a command is the exact sum or difference modulo the field prime (R78). -/
theorem natCast_arithmetic (i : Instr) : (arithmetic i : Int) = exactValue i % fieldPrime := by
  cases i with
  | add a b => exact natCast_addMod ..
  | sub a b => exact natCast_subMod ..

theorem arithmetic_lt (i : Instr) : arithmetic i < fieldPrime := by
  cases i with
  | add a b => exact addMod_lt ..
  | sub a b => exact subMod_lt ..

/-- A difference as a remainder of natural numbers: the modulus is added before the subtraction (R70). -/
theorem subMod_eq_mod {b : Nat} (a : Nat) (hb : b < fieldPrime) : subMod a b = (a + fieldPrime - b) % fieldPrime := by
  have hsum : ((a + fieldPrime - b : Nat) : Int) = (a : Int) - b + fieldPrime := by omega
  apply Int.natCast_inj.mp
  rw [natCast_subMod, Int.natCast_emod, hsum, Int.add_emod_right]

/-! ### Laws of ADD -/

theorem addMod_comm (a b : Nat) : addMod a b = addMod b a := by rw [addMod, addMod, Nat.add_comm]

theorem addMod_assoc (a b c : Nat) : addMod (addMod a b) c = addMod a (addMod b c) := by
  simp only [addMod, Nat.mod_add_mod, Nat.add_mod_mod, Nat.add_assoc]

section Laws
variable {a b : Nat} (ha : a < fieldPrime) (hb : b < fieldPrime)
include ha hb

/-- The sum of two field elements with its one conditional subtraction (R81). -/
theorem addMod_eq : addMod a b = if a + b < fieldPrime then a + b else a + b - fieldPrime := by
  unfold addMod
  split
  next h => exact Nat.mod_eq_of_lt h
  next h => rw [Nat.mod_eq_sub_mod (Nat.not_lt.mp h), Nat.mod_eq_of_lt (by omega)]

theorem addMod_eq_zero_iff : addMod a b = 0 ↔ b = subMod 0 a := by
  rw [addMod_eq ha hb, subMod_zero_left ha]
  split <;> split <;> omega

end Laws

theorem addMod_neg {a : Nat} (ha : a < fieldPrime) : addMod a (subMod 0 a) = 0 :=
  (addMod_eq_zero_iff ha (subMod_lt 0 a)).mpr rfl

/-! ### Laws of SUB -/

theorem subMod_eq_addMod_neg (a b : Nat) : subMod a b = addMod a (subMod 0 b) := by
  apply Int.natCast_inj.mp
  rw [natCast_addMod, natCast_subMod, natCast_subMod, Int.add_emod_emod, Int.natCast_zero,
    Int.zero_sub, Int.sub_eq_add_neg]

theorem addMod_subMod_cancel {a : Nat} (b : Nat) (ha : a < fieldPrime) : addMod (subMod a b) b = a := by
  apply Int.natCast_inj.mp
  rw [natCast_addMod, natCast_subMod, Int.emod_add_emod, Int.sub_add_cancel]
  exact Int.emod_eq_of_lt (by omega) (by omega)

theorem subMod_zero {a : Nat} (ha : a < fieldPrime) : subMod a 0 = a :=
  (addMod_zero (subMod_lt a 0)).symm.trans (addMod_subMod_cancel 0 ha)

theorem subMod_self (a : Nat) : subMod a a = 0 := by
  simp [subMod]

/-- The difference the other way round is the additive inverse. -/
theorem addMod_subMod_subMod (a b : Nat) : addMod (subMod a b) (subMod b a) = 0 := by
  apply Int.natCast_inj.mp
  rw [natCast_addMod, natCast_subMod, natCast_subMod, ← Int.add_emod, sub_add_sub_cancel, sub_self]
  rfl

theorem subMod_swap {a b : Nat} (ha : a < fieldPrime) (hb : b < fieldPrime) (hne : a ≠ b) :
    subMod b a = fieldPrime - subMod a b := by
  rw [subMod_eq ha hb, subMod_eq hb ha]
  split <;> split <;> omega

/-- Settles O21, law by law. -/
theorem subtractionLawsHold : Obligations.SubtractionLawsHold :=
  fun a b ha hb => ⟨subMod_eq_addMod_neg a b, subMod_zero ha, subMod_self a, addMod_subMod_cancel b ha,
    addMod_subMod_subMod a b, subMod_swap ha hb, subMod_eq ha hb⟩

/-! ### ADD with its operands exchanged -/

theorem wellFormed_add_comm (a b : Word) : (Instr.add b a).wellFormed = (Instr.add a b).wellFormed :=
  Bool.and_comm ..

/-- Exchanging the operands of ADD leaves its result and its zero flag as they are (R80). -/
theorem execute_add_comm (a b : Word) :
    (execute (.add b a)).result = (execute (.add a b)).result ∧ (execute (.add b a)).zero = (execute (.add a b)).zero := by
  have hcomm : arithmetic (.add b a) = arithmetic (.add a b) := addMod_comm ..
  cases h : (Instr.add a b).wellFormed with
  | true =>
    rw [execute_of_wellFormed h, execute_of_wellFormed ((wellFormed_add_comm a b).trans h), hcomm]
    exact ⟨rfl, rfl⟩
  | false =>
    rw [execute_of_not_wellFormed h, execute_of_not_wellFormed ((wellFormed_add_comm a b).trans h)]
    exact ⟨rfl, rfl⟩

theorem execute_err_getLsbD_zero (i : Instr) : (execute i).err.getLsbD 0 = outOfRange i.opA := by
  rw [execute_err, errMask_getLsbD_zero]

theorem execute_err_getLsbD_one (i : Instr) : (execute i).err.getLsbD 1 = outOfRange i.opB := by
  rw [execute_err, errMask_getLsbD_one]

/-- Settles O20: the laws of the values, then the response, whose mask bits follow their operands. -/
theorem additionLawsHold : Obligations.AdditionLawsHold := by
  refine ⟨fun a b c ha hb _ => ⟨addMod_comm a b, addMod_assoc a b c, addMod_zero ha, addMod_neg ha, addMod_eq ha hb⟩,
    fun a b => ⟨(execute_add_comm a b).1, (execute_add_comm a b).2, ?_, ?_⟩⟩
  · exact (execute_err_getLsbD_zero (.add b a)).trans (execute_err_getLsbD_one (.add a b)).symm
  · exact (execute_err_getLsbD_one (.add b a)).trans (execute_err_getLsbD_zero (.add a b)).symm

end Sys2Proof.Machine
end

section
/-! The two conforming datapaths (R81, R84): each width holds its exact sum or difference, so the sign of a difference is its
comparison, and the one conditional correction gives the reduced value. -/

namespace Sys2Proof.Machine

open Config (fieldPrime fieldPrime_lt_two_pow_252 add_lt_two_pow_253)

/-! ### Differences of words with a bit to spare -/

section Difference
variable {w : Nat} {x y : BitVec (w + 1)} (hx : x.toNat < 2 ^ w) (hy : y.toNat < 2 ^ w)
include hx hy

/-- A signed difference of unsigned words one bit shorter is exact. -/
theorem toInt_sub_of_lt : (x - y).toInt = (x.toNat : Int) - (y.toNat : Int) := by
  have hpow : 2 ^ (w + 1) = 2 * 2 ^ w := Nat.pow_succ'
  rw [BitVec.toInt_sub, BitVec.toInt_eq_toNat_of_lt (by omega), BitVec.toInt_eq_toNat_of_lt (by omega)]
  exact Int.bmod_eq_of_le_mul_two (by omega) (by omega)

theorem msb_sub_of_lt : (x - y).msb = decide (x.toNat < y.toNat) := by
  rw [BitVec.msb_eq_toInt, toInt_sub_of_lt hx hy]
  exact decide_eq_decide.mpr (by omega)

end Difference

theorem toNat_setWidth_of_lt_fieldPrime {v : Word} {n : Nat} (hn : 252 ≤ n) (hv : v.toNat < fieldPrime) :
    (v.setWidth n).toNat = v.toNat := by
  rw [BitVec.toNat_setWidth]
  exact Nat.mod_eq_of_lt (hv.trans (fieldPrime_lt_two_pow_252.trans_le (Nat.pow_le_pow_right Nat.two_pos hn)))

section Datapaths
variable {a b : Word} (ha : a.toNat < fieldPrime) (hb : b.toNat < fieldPrime)

include ha hb

/-! ### ADD -/

theorem addSum253_toNat : (addSum253 a b).toNat = a.toNat + b.toNat := by
  have ha' := toNat_setWidth_of_lt_fieldPrime (n := 253) (by decide) ha
  have hb' := toNat_setWidth_of_lt_fieldPrime (n := 253) (by decide) hb
  have hlt : (a.setWidth 253).toNat + (b.setWidth 253).toNat < 2 ^ 253 := by
    rw [ha', hb']
    exact add_lt_two_pow_253 ha hb
  rw [addSum253, BitVec.toNat_add_of_lt hlt, ha', hb']

theorem addDatapath_toNat : (addDatapath a b).toNat = addMod a.toNat b.toNat := by
  have hP := fieldPrime_lt_two_pow_252
  have hsum := addSum253_toNat ha hb
  have hx : ((addSum253 a b).setWidth 254).toNat = a.toNat + b.toNat := by
    rw [BitVec.toNat_setWidth_of_le (by decide), hsum]
  have hy : (BitVec.ofNat 254 fieldPrime).toNat = fieldPrime := by decide
  have hsign := msb_sub_of_lt (x := (addSum253 a b).setWidth 254) (y := BitVec.ofNat 254 fieldPrime) (by omega) (by omega)
  rw [hx, hy] at hsign
  simp only [addDatapath, hsign, decide_eq_true_iff, addMod_eq ha hb]
  split
  next h => rw [BitVec.toNat_setWidth_of_le (by decide), hsum]
  next h =>
    rw [BitVec.toNat_setWidth, BitVec.toNat_sub_of_le (by rw [BitVec.le_def]; omega), hx, hy]
    omega

/-! ### SUB -/

theorem subDiff253_toInt : (subDiff253 a b).toInt = (a.toNat : Int) - (b.toNat : Int) := by
  have hP := fieldPrime_lt_two_pow_252
  have ha' := toNat_setWidth_of_lt_fieldPrime (n := 253) (by decide) ha
  have hb' := toNat_setWidth_of_lt_fieldPrime (n := 253) (by decide) hb
  rw [subDiff253, toInt_sub_of_lt (by omega) (by omega), ha', hb']

theorem subDatapath_toNat : (subDatapath a b).toNat = subMod a.toNat b.toNat := by
  have hP := fieldPrime_lt_two_pow_252
  have ha' := toNat_setWidth_of_lt_fieldPrime (n := 253) (by decide) ha
  have hb' := toNat_setWidth_of_lt_fieldPrime (n := 253) (by decide) hb
  have hy : (BitVec.ofNat 253 fieldPrime).toNat = fieldPrime := by decide
  have hsign := msb_sub_of_lt (x := a.setWidth 253) (y := b.setWidth 253) (by omega) (by omega)
  rw [ha', hb'] at hsign
  simp only [subDatapath, subDiff253, hsign, decide_eq_true_iff, subMod_eq ha hb]
  rw [BitVec.toNat_setWidth_of_le (by decide)]
  split
  next h =>
    rw [BitVec.toNat_add, BitVec.toNat_sub, ha', hb', hy, if_neg (by omega)]
    omega
  next h =>
    rw [BitVec.toNat_sub_of_le (by rw [BitVec.le_def]; omega), ha', hb', if_pos (by omega)]

end Datapaths

/-- Settles O22: the sum is exact in 253 bits, and the sign of the 254-bit difference is the comparison with the prime. -/
theorem addDatapathGivesAddMod : Obligations.AddDatapathGivesAddMod :=
  fun _ _ ha hb => ⟨addSum253_toNat ha hb, by omega, addDatapath_toNat ha hb⟩

/-- Settles O23: the difference is exact in 253 signed bits, and its sign is the comparison of the operands. -/
theorem subDatapathGivesSubMod : Obligations.SubDatapathGivesSubMod :=
  fun _ _ ha hb => ⟨subDiff253_toInt ha hb, by omega, by omega, subDatapath_toNat ha hb⟩

end Sys2Proof.Machine
end

section
/-! What a completing command answers: its mask (R71, R92), its result as the canonical residue (R78) and its zero flag (R85). -/

namespace Sys2Proof.Machine

open Claims
open Config (fieldPrime)

/-! ### The mask -/

theorem errMask_eq_rangeMask (a b : Word) : errMask a b = rangeMask a b := by
  unfold errMask rangeMask outOfRange
  cases decide (fieldPrime ≤ b.toNat) <;> cases decide (fieldPrime ≤ a.toNat) <;> rfl

/-- The mask has one bit for each operand and no other. -/
theorem errMask_eq_iff {a b : Word} {m : BitVec 2} :
    errMask a b = m ↔ outOfRange a = m.getLsbD 0 ∧ outOfRange b = m.getLsbD 1 := by
  constructor
  · rintro rfl
    exact ⟨(errMask_getLsbD_zero a b).symm, (errMask_getLsbD_one a b).symm⟩
  · rintro ⟨ha, hb⟩
    apply BitVec.eq_of_getLsbD_eq
    intro k hk
    obtain rfl | rfl : k = 0 ∨ k = 1 := by omega
    · rw [errMask_getLsbD_zero, ha]
    · rw [errMask_getLsbD_one, hb]

theorem outOfRange_eq_true_iff {v : Word} : outOfRange v = true ↔ fieldPrime ≤ v.toNat := decide_eq_true_iff

theorem outOfRange_eq_false_iff {v : Word} : outOfRange v = false ↔ v.toNat < fieldPrime := by
  rw [← Bool.not_eq_true, outOfRange_eq_true_iff, Nat.not_le]

theorem execute_result_eq_none_iff {i : Instr} :
    (execute i).result = none ↔ fieldPrime ≤ i.opA.toNat ∨ fieldPrime ≤ i.opB.toNat := by
  rw [← wellFormed_eq_false_iff]
  cases h : i.wellFormed with
  | true => simp [execute_of_wellFormed h]
  | false => simp [execute_of_not_wellFormed h]

/-- Settles O15: `ERR` is the mask of the operands, read bit by bit. -/
theorem errorMaskNamesTheOperandsOutOfRange : Obligations.ErrorMaskNamesTheOperandsOutOfRange := by
  intro i s
  refine ⟨_, exec_eq i s, execute_err_getLsbD_zero i, execute_err_getLsbD_one i, execute_result_eq_none_iff, ?_⟩
  simp only [State.complete_block, complete_err, execute_err, errMask_eq_iff, ← outOfRange_eq_true_iff,
    ← outOfRange_eq_false_iff]
  exact ⟨Iff.rfl, Iff.rfl, Iff.rfl, Iff.rfl⟩

/-- Settles O16: the failing branch of the range check. -/
theorem malformedCommandsFailWithNoResult : Obligations.MalformedCommandsFailWithNoResult := by
  intro i s h
  have hmalformed := wellFormed_eq_false_iff.mpr h
  exact ⟨_, errMask_ne_zero h, errMask_getLsbD_zero .., errMask_getLsbD_one ..,
    completesMalformed_of_not_wellFormed hmalformed s⟩

/-- Settles O14: a completion writes the response registers, `BUSY` and `VALID`. -/
theorem commandsWriteOnlyTheResponseRegisters : Obligations.CommandsWriteOnlyTheResponseRegisters :=
  fun i s => ⟨_, exec_eq i s, complete_busy .., complete_valid .., complete_lOp .., complete_lA .., complete_lB ..,
    complete_cnt .., State.complete_lat .., State.complete_host .., State.complete_observed ..⟩

/-! ### The result and the zero flag -/

theorem toNat_word_arithmetic (i : Instr) : (word (arithmetic i)).toNat = arithmetic i :=
  toNat_ofNat_of_lt_fieldPrime (arithmetic_lt i)

/-- Of the field elements, the value of a command is the one congruent to the exact sum or difference (R78). -/
theorem dvd_exactValue_sub_iff {i : Instr} {x : Nat} (hx : x < fieldPrime) :
    (fieldPrime : Int) ∣ exactValue i - x ↔ x = arithmetic i := by
  have hmod : (x : Int) % fieldPrime = x := Int.emod_eq_of_lt (by omega) (by omega)
  rw [← Int.modEq_iff_dvd, Int.ModEq, hmod, ← natCast_arithmetic, Int.natCast_inj]

theorem exec_of_wellFormed {i : Instr} (h : i.wellFormed = true) (s : State) :
    exec i s = .next (s.complete (success (arithmetic i))) := by
  rw [exec_eq, execute_of_wellFormed h]

/-- Settles O18: the value is below the prime, and a remainder is the one representative there. -/
theorem resultsAreCanonicalResidues : Obligations.ResultsAreCanonicalResidues := by
  intro i s ha hb
  have hlt : (word (arithmetic i)).toNat < fieldPrime := (toNat_word_arithmetic i).trans_lt (arithmetic_lt i)
  refine ⟨_, word (arithmetic i), exec_of_wellFormed (wellFormed_iff.mpr ⟨ha, hb⟩) s, rfl, rfl, hlt,
    topBits_of_lt_fieldPrime hlt, fun x hx => ?_, fun hdvd => ?_⟩
  · rw [toNat_word_arithmetic]
    exact dvd_exactValue_sub_iff hx
  · have hzero := Nat.eq_zero_of_dvd_of_lt (Int.natCast_dvd_natCast.mp hdvd) hlt
    exact BitVec.eq_of_toNat_eq hzero

theorem zeroFlag_arithmetic_iff (i : Instr) :
    zeroFlag (arithmetic i) = true ↔ some (word (arithmetic i)) = some (word 0) :=
  (zeroFlag_iff_word (arithmetic_lt i)).trans Option.some_inj.symm

theorem zeroFlag_eq_true_iff {r : Nat} : zeroFlag r = true ↔ r = 0 := decide_eq_true_iff

/-- Settles O19: when a sum and when a difference of field elements is 0. -/
theorem zeroFlagTestsTheResult : Obligations.ZeroFlagTestsTheResult := by
  intro a b s ha hb
  have hwf : (Instr.add a b).wellFormed = true := wellFormed_iff.mpr ⟨ha, hb⟩
  constructor
  · exact ⟨_, exec_of_wellFormed hwf s, zeroFlag_arithmetic_iff (.add a b),
      zeroFlag_eq_true_iff.trans (addMod_eq_zero_iff ha hb)⟩
  · exact ⟨_, exec_of_wellFormed (i := .sub a b) hwf s, zeroFlag_arithmetic_iff (.sub a b),
      zeroFlag_eq_true_iff.trans ((subMod_eq_zero_iff ha hb).trans BitVec.toNat_inj)⟩

end Sys2Proof.Machine
end

section
/-! ADD and SUB at their completing edge, and the corner cases of R76, R79 and R82. -/

namespace Sys2Proof.Machine

open Claims
open Config (fieldPrime)

/-! ### Acceptance and completion -/

theorem accept_command_of_frame {p : Ports} {i : Instr} (h : p.frame = encode i) (b : Block) (lat : Nat) :
    (b.accept lat p).command = some i := by
  rw [accept_command, h, decodeFrame_encode]

/-- A legal command with the value `n` completes with it. -/
theorem completesOk_of_value {i : Instr} {n : Nat} (hwf : i.wellFormed = true) (hn : arithmetic i = n) (s : State) :
    CompletesOk i s (word n) (decide (n = 0)) :=
  hn ▸ completesOk_of_wellFormed hwf s

theorem completesMalformed_of_le {i : Instr} (h : fieldPrime ≤ i.opA.toNat ∨ fieldPrime ≤ i.opB.toNat) (s : State) :
    CompletesMalformed i s (rangeMask i.opA i.opB) :=
  errMask_eq_rangeMask .. ▸ completesMalformed_of_not_wellFormed (wellFormed_eq_false_iff.mpr h) s

/-! ### ADD -/

theorem add_frame {p : Ports} {a b : Word} (hop : p.inOp = 0#1) (ha : p.inA = a) (hb : p.inB = b) :
    p.frame = encode (.add a b) := by
  rw [Ports.frame, hop, ha, hb, encode]

/-- The sums of the boundary operands (R76, R79). -/
theorem add_boundary_completes (s : State) :
    CompletesOk (.add (word 0) (word 0)) s (word 0) true ∧
    CompletesOk (.add (word 0) (word (fieldPrime - 1))) s (word (fieldPrime - 1)) false ∧
    CompletesOk (.add (word (fieldPrime - 1)) (word 0)) s (word (fieldPrime - 1)) false ∧
    CompletesOk (.add (word (fieldPrime - 1)) (word (fieldPrime - 1))) s (word (fieldPrime - 2)) false :=
  ⟨completesOk_of_value (by decide) (by decide) s, completesOk_of_value (by decide) (by decide) s,
    completesOk_of_value (by decide) (by decide) s, completesOk_of_value (by decide) (by decide) s⟩

theorem add_neg_one_completes (s : State) : CompletesOk (.add (word (fieldPrime - 1)) (word 1)) s (word 0) true :=
  completesOk_of_value (by decide) (by decide) s

/-- Settles O12: the frame at acceptance, the two outcomes of the range check, and the corner cases by their values. -/
theorem addCompletesWithTheFieldSum : Obligations.AddCompletesWithTheFieldSum := by
  intro a b s
  obtain ⟨hzero, -, -, hlargest⟩ := add_boundary_completes s
  refine ⟨fun p hop ha hb => ⟨add_frame hop ha hb, accept_command_of_frame (add_frame hop ha hb) ..⟩,
    fun ha hb => completesOk_of_wellFormed (i := .add a b) (wellFormed_iff.mpr ⟨ha, hb⟩) s,
    fun h => completesMalformed_of_le (i := .add a b) h s, hzero, add_neg_one_completes s, hlargest, tst_completes s,
    fun _ => rfl, completesOk_of_value (by decide) (by decide) s, tst_malformed s (by decide), add_neg_one_completes s⟩

/-! ### SUB -/

theorem sub_frame {p : Ports} {a b : Word} (hop : p.inOp = 1#1) (ha : p.inA = a) (hb : p.inB = b) :
    p.frame = encode (.sub a b) := by
  rw [Ports.frame, hop, ha, hb, encode]

/-- The differences of the boundary operands (R76, R82). -/
theorem sub_boundary_completes (s : State) :
    CompletesOk (.sub (word 0) (word 0)) s (word 0) true ∧
    CompletesOk (.sub (word 0) (word (fieldPrime - 1))) s (word 1) false ∧
    CompletesOk (.sub (word (fieldPrime - 1)) (word 0)) s (word (fieldPrime - 1)) false ∧
    CompletesOk (.sub (word (fieldPrime - 1)) (word (fieldPrime - 1))) s (word 0) true :=
  ⟨completesOk_of_value (by decide) (by decide) s, completesOk_of_value (by decide) (by decide) s,
    completesOk_of_value (by decide) (by decide) s, completesOk_of_value (by decide) (by decide) s⟩

theorem sub_emod_eq_zero_iff {a b : Nat} : ((a : Int) - b) % fieldPrime = 0 ↔ subMod a b = 0 := by
  rw [← natCast_subMod, Int.natCast_eq_zero]

theorem sub_completes {a b : Word} (ha : a.toNat < fieldPrime) (hb : b.toNat < fieldPrime) (s : State) :
    CompletesOk (.sub a b) s (word (((a.toNat : Int) - (b.toNat : Int)) % (fieldPrime : Int)).toNat)
      (decide (((a.toNat : Int) - (b.toNat : Int)) % (fieldPrime : Int) = 0)) := by
  rw [decide_eq_decide.mpr sub_emod_eq_zero_iff]
  exact completesOk_of_wellFormed (i := .sub a b) (wellFormed_iff.mpr ⟨ha, hb⟩) s

theorem sub_self_completes {a : Word} (ha : a.toNat < fieldPrime) (s : State) :
    CompletesOk (.sub a a) s (word 0) true :=
  completesOk_of_value (i := .sub a a) (wellFormed_iff.mpr ⟨ha, ha⟩) (subMod_self a.toNat) s

theorem zero_sub_one_completes (s : State) : CompletesOk (.sub (word 0) (word 1)) s (word (fieldPrime - 1)) false :=
  completesOk_of_value (by decide) (by decide) s

/-- Settles O13: the frame at acceptance, the two outcomes of the range check, and the corner cases by their values. -/
theorem subCompletesWithTheFieldDifference : Obligations.SubCompletesWithTheFieldDifference := by
  intro a b s
  obtain ⟨hzero, hborrow, hidentity, -⟩ := sub_boundary_completes s
  refine ⟨rfl, fun p hop ha hb => ⟨sub_frame hop ha hb, accept_command_of_frame (sub_frame hop ha hb) ..⟩,
    fun ha hb => ⟨sub_completes ha hb s,
      sub_emod_eq_zero_iff.trans ((subMod_eq_zero_iff ha hb).trans BitVec.toNat_inj)⟩,
    fun h => completesMalformed_of_le (i := .sub a b) h s, hzero, fun ha => sub_self_completes ha s,
    zero_sub_one_completes s, hborrow, completesOk_of_value (by decide) (by decide) s, hidentity, ?_, ?_,
    zero_sub_one_completes s⟩
  · exact completesMalformed_of_le (i := .sub (word fieldPrime) (word 1)) (by decide) s
  · exact completesMalformed_of_le (i := .sub (word 1) (word fieldPrime)) (by decide) s

/-- Settles O24: the boundary values of both commands. -/
theorem boundaryOperandsSucceed : Obligations.BoundaryOperandsSucceed := by
  intro s
  obtain ⟨hzero, hright, hleft, hlargest⟩ := add_boundary_completes s
  exact ⟨hzero, hright, hleft, hlargest, sub_boundary_completes s⟩

end Sys2Proof.Machine
end

section
/-! One edge with a command in flight, or one that accepts a command, and the step that runs a placed command (R67, R68, R70). -/

namespace Sys2Proof.Machine

open Claims
open Config (fieldPrime)

/-- Settles O27: the acceptance writes every register of the block. -/
theorem acceptingEdgeWritesTheLatches : Obligations.AcceptingEdgeWritesTheLatches :=
  fun _ _ => clock_accept

/-! ### The latched command -/

section Latched
variable {op : BitVec 1} {a b : Word} {s : State}

theorem command_of_latches {r : Block} (hop : r.lOp = some op) (ha : r.lA = some a) (hb : r.lB = some b) :
    r.command = some (decodeFrame (joinFrame op a b)) := by
  simp only [Block.command, Block.frame, hop, ha, hb, Option.map_some]

theorem decodeFrame_joinFrame :
    decodeFrame (joinFrame op a b) = if op = 0#1 then .add a b else .sub a b := by
  simp [decodeFrame]

theorem opA_decodeFrame_joinFrame : (decodeFrame (joinFrame op a b)).opA = a := by
  rw [decodeFrame_joinFrame]
  split <;> rfl

theorem opB_decodeFrame_joinFrame : (decodeFrame (joinFrame op a b)).opB = b := by
  rw [decodeFrame_joinFrame]
  split <;> rfl

theorem arithmetic_decodeFrame_joinFrame (hb : b.toNat < fieldPrime) :
    arithmetic (decodeFrame (joinFrame op a b)) =
      if op = 0#1 then (a.toNat + b.toNat) % fieldPrime else (a.toNat + fieldPrime - b.toNat) % fieldPrime := by
  rw [decodeFrame_joinFrame, apply_ite arithmetic, arithmetic, arithmetic, subMod_eq_mod _ hb, addMod]

end Latched

theorem rangeMask_eq_zero_iff {i : Instr} : rangeMask i.opA i.opB = 0b00#2 ↔ i.wellFormed = true := by
  rw [← errMask_eq_rangeMask, errMask_eq_iff, wellFormed_iff, ← outOfRange_eq_false_iff, ← outOfRange_eq_false_iff]
  exact Iff.rfl

/-- `Execute` with its range check written out (R70). -/
theorem execute_eq (i : Instr) :
    execute i = if rangeMask i.opA i.opB ≠ 0b00#2 then malformedInput (rangeMask i.opA i.opB) else success (arithmetic i) := by
  cases h : i.wellFormed with
  | true => rw [execute_of_wellFormed h, if_neg (not_not.mpr (rangeMask_eq_zero_iff.mpr h))]
  | false =>
    rw [execute_of_not_wellFormed h, errMask_eq_rangeMask, if_pos]
    exact mt rangeMask_eq_zero_iff.mp (by simp [h])

/-- Settles O31: the response of the decoded frame, by the range check and then by the operation. -/
theorem completingEdgeExecutesTheLatchedCommand : Obligations.CompletingEdgeExecutesTheLatchedCommand := by
  intro p s op a b hr hbusy hcnt hop ha hb
  rw [clock_complete hr hbusy hcnt (command_of_latches hop ha hb), exec_eq, execute_eq, opA_decodeFrame_joinFrame,
    opB_decodeFrame_joinFrame, State.complete]
  by_cases hmask : rangeMask a b = 0b00#2
  · have hrange : b.toNat < fieldPrime := (wellFormed_iff.mp (rangeMask_eq_zero_iff (i := .add a b).mp hmask)).2
    rw [arithmetic_decodeFrame_joinFrame hrange, hmask]
    by_cases h : op = 0#1 <;> simp [h, Block.complete, zeroFlag]
  · simp [hmask, Block.complete]

/-! ### The step that runs it -/

/-- Settles O32: whatever the host does at that edge, its pins have no reset. -/
theorem stepRunsTheLatchedCommand : Obligations.StepRunsTheLatchedCommand := by
  intro s op a b hbusy hcnt hop ha hb
  have hcommand := command_of_latches hop ha hb
  refine ⟨fun hh => ?_, fun p rest hh hr => ?_, fun j rest hh => ?_, fun rest hh hv => ?_⟩
  · rw [step_nil hh, clock_complete rfl hbusy hcnt hcommand]
  · rw [step_cons hh]
    exact clock_complete (s := { s with host := rest }) hr hbusy hcnt hcommand
  · rw [step_issue_busy hh hbusy, clock_complete rfl hbusy hcnt hcommand]
  · rw [step_cons hh, perform, hv, if_neg Bool.false_ne_true, ← hh]
    exact clock_complete rfl hbusy hcnt hcommand

theorem due_command (w : Frame) (b : Block) : (b.due w).command = some (decodeFrame w) := by
  rw [Block.due, accept_command, Ports.frame, joinFrame_fields]

theorem toNat_ofNat_of_lt_two_pow {n w : Nat} (h : w < 2 ^ n) : (BitVec.ofNat n w).toNat = w :=
  (BitVec.toNat_ofNat w n).trans (Nat.mod_eq_of_lt h)

/-- Settles O33: the idle edge in front of the host's list completes the placed command. Where it is placed is the model's choice
(log entry 4). -/
theorem placedWordRunsAtTheNextStep : Obligations.PlacedWordRunsAtTheNextStep := by
  intro s w hw
  have hdue := due_command (frameOfNat w) s.block
  rw [frameOfNat_eq] at hdue
  refine ⟨{ s with block := s.block.due (BitVec.ofNat 513 w) }, ?_, ?_, hdue, rfl, rfl, rfl, rfl, rfl⟩
  · rw [step_cons (s := s.withFetchWord 520 w) rfl, perform, State.withFetchWord, frameOfNat_eq]
    exact clock_complete rfl rfl rfl hdue
  · rw [← decodeTableWord_toNat (nbits := 520) _ (by decide), toNat_ofNat_of_lt_two_pow hw]

/-! ### Where a step can stop -/

section Stops
variable {s : State}

theorem readResult_of_isSome (h : s.block.result.isSome = true) : ∃ t, readResult s = .next t := by
  obtain ⟨v, hv⟩ := Option.isSome_iff_exists.mp h
  exact ⟨_, by rw [readResult, hv]⟩

theorem readReply_of_isSome (h : s.block.reply.isSome = true) : ∃ t, readReply s = .next t := by
  obtain ⟨r, hr⟩ := Option.isSome_iff_exists.mp h
  exact ⟨_, by rw [readReply, hr]⟩

/-- The host's duty is to read only what is there (R33, R112). -/
theorem hostKeepsDuty_eq_false (h : s.hostKeepsDuty = false) :
    ∃ rest, (s.host = .readResult :: rest ∧ s.block.result = none) ∨ (s.host = .read :: rest ∧ s.block.reply = none) := by
  unfold State.hostKeepsDuty at h
  split at h
  next rest hh => exact ⟨rest, .inl ⟨hh, Option.isNone_iff_eq_none.mp (Option.isSome_eq_false_iff.mp h)⟩⟩
  next rest hh => exact ⟨rest, .inr ⟨hh, Option.isNone_iff_eq_none.mp (Option.isSome_eq_false_iff.mp h)⟩⟩
  next => cases h

theorem step_fault_of_not_duty (h : s.hostKeepsDuty = false) : step s = .fault .resultHasNoValue := by
  obtain ⟨rest, ⟨hh, hnone⟩ | ⟨hh, hnone⟩⟩ := hostKeepsDuty_eq_false h
  · simp only [step_cons hh, perform, readResult, hnone]
  · simp only [step_cons hh, perform, readReply, hnone]

/-- An edge finds a command in the latches wherever it needs one, and a read that keeps the duty finds its value. -/
theorem step_next_of_duty (hs : s.Inv) (h : s.hostKeepsDuty = true) : ∃ t, step s = .next t := by
  have edge_next : ∀ p l, ∃ t, clock p { s with host := l } = .next t := fun _ _ => clock_next_of hs.block.inFlight
  cases hh : s.host with
  | nil =>
    rw [step_nil hh]
    exact edge_next Ports.idle s.host
  | cons act rest =>
    rw [State.hostKeepsDuty, hh] at h
    rw [step_cons hh]
    cases act with
    | edge p => exact edge_next p rest
    | issue i => exact edge_next (Ports.present i) _
    | wait =>
      rw [perform]
      split
      · exact ⟨_, rfl⟩
      · exact edge_next Ports.idle _
    | read => exact readReply_of_isSome (s := { s with host := rest }) h
    | readResult => exact readResult_of_isSome (s := { s with host := rest }) h
    | readStatus => exact ⟨_, rfl⟩
    | readReady rst => exact ⟨_, rfl⟩

end Stops

/-- Settles O38: the host's next action keeps its duty or is the one host error. -/
theorem onlyHostErrorsStopTheMachine : Obligations.OnlyHostErrorsStopTheMachine :=
  fun _ hs => ⟨step_next_of_duty hs, step_fault_of_not_duty⟩

end Sys2Proof.Machine
end

section
/-! Whole transactions (R74, R88, R119): a block with a command in flight, under actions of the host that cannot disturb it. -/

namespace Sys2Proof.Machine

open Claims

/-! ### The response of a command -/

theorem expectedReply_of_wellFormed {i : Instr} (h : i.wellFormed = true) :
    expectedReply i = .ok (word (arithmetic i)) (zeroFlag (arithmetic i)) := by
  obtain ⟨ha, hb⟩ := wellFormed_iff.mp h
  cases i with
  | add a b => exact if_pos ⟨ha, hb⟩
  | sub a b =>
    have ha : a.toNat < Config.fieldPrime := ha
    have hb : b.toNat < Config.fieldPrime := hb
    have hzero : a = b ↔ subMod a.toNat b.toNat = 0 := BitVec.toNat_inj.symm.trans (subMod_eq_zero_iff ha hb).symm
    rw [expectedReply, if_pos ⟨ha, hb⟩, ← Nat.add_sub_assoc hb.le, ← subMod_eq_mod _ hb, decide_eq_decide.mpr hzero]
    rfl

theorem expectedReply_of_not_wellFormed {i : Instr} (h : i.wellFormed = false) :
    expectedReply i = .malformed (errMask i.opA i.opB) := by
  have hrange : ¬(i.opA.toNat < Config.fieldPrime ∧ i.opB.toNat < Config.fieldPrime) :=
    mt wellFormed_iff.mpr (by simp [h])
  rw [errMask_eq_rangeMask]
  cases i <;> exact if_neg hrange

/-- What a host reads after a completion is the reply the spec gives the command (R63, R70). -/
theorem complete_reply (b : Block) (i : Instr) : (b.complete (execute i)).reply = some (expectedReply i) := by
  cases h : i.wellFormed with
  | true => simp [Block.reply, execute_of_wellFormed h, expectedReply_of_wellFormed h]
  | false =>
    simp [Block.reply, execute_of_not_wellFormed h, expectedReply_of_not_wellFormed h, errMask_ne_zero_of_not_wellFormed h]

/-! ### A command in flight -/

/-- The block `k` edges without reset after `b`, which has the command `i` in flight: `CNT` counts down to 0, and the edge after
that completes (R68, R69). -/
def Block.afterEdges (b : Block) (i : Instr) (k : Nat) : Block :=
  if k ≤ b.cnt then { b with cnt := b.cnt - k } else ({ b with cnt := 0 } : Block).complete (execute i)

section InFlight
variable {b : Block} {i : Instr} {k : Nat} {s : State} {act : HostAction} {acts rest : List HostAction}

@[simp] theorem afterEdges_zero : b.afterEdges i 0 = b := if_pos (Nat.zero_le _)

theorem afterEdges_of_le (h : k ≤ b.cnt) : b.afterEdges i k = { b with cnt := b.cnt - k } := if_pos h

theorem afterEdges_of_lt (h : b.cnt < k) : b.afterEdges i k = ({ b with cnt := 0 } : Block).complete (execute i) :=
  if_neg (Nat.not_le.mpr h)

/-- One edge further, up to and including the completing edge. -/
theorem clock_afterEdges {p : Ports} (hr : p.rst = false) (hb : b.busy = true) (hi : b.command = some i) (hk : k ≤ b.cnt)
    (hs : s.block = b.afterEdges i k) : clock p s = .next { s with block := b.afterEdges i (k + 1) } := by
  rw [afterEdges_of_le hk] at hs
  have hbusy : s.block.busy = true := hs ▸ hb
  have hcnt : s.block.cnt = b.cnt - k := hs ▸ rfl
  obtain hlt | rfl := hk.lt_or_eq
  · rw [clock_wait hr hbusy (by omega), hs, afterEdges_of_le hlt]
    rfl
  · have hcommand : s.block.command = some i := hs ▸ hi
    rw [clock_complete hr hbusy (by omega) hcommand, exec_eq, State.complete, hs, afterEdges_of_lt (Nat.lt_succ_self _),
      Nat.sub_self]

/-! ### Actions of the host that do not disturb it -/

/-- A quiet action that is no edge is a read of the status outputs: the host notes what it reads. -/
theorem step_quiet_read (hq : Quiet act) (he : isEdge act = false) (hh : s.host = act :: rest) :
    ∃ o, step s = .next (State.observe o { s with host := rest }) := by
  rw [step_cons hh]
  cases act with
  | readStatus => exact ⟨_, rfl⟩
  | readReady rst => exact ⟨_, rfl⟩
  | edge p => cases he
  | issue i => cases hq
  | wait => cases hq
  | read => cases hq
  | readResult => cases hq

theorem step_quiet_edge (hq : Quiet act) (he : isEdge act = true) (hh : s.host = act :: rest) :
    ∃ p, p.rst = false ∧ step s = clock p { s with host := rest } := by
  rw [step_cons hh]
  cases act with
  | edge p => exact ⟨p, hq, rfl⟩
  | _ => cases he

/-- Quiet actions with edges up to the completing one: only the edges count for the block, and the record gains one value for each
read. -/
theorem run_quiet (hb : b.busy = true) (hi : b.command = some i) (hq : ∀ x ∈ acts, Quiet x) (hh : s.host = acts ++ rest)
    (hs : s.block = b.afterEdges i k) (hk : k + acts.countP isEdge ≤ b.cnt + 1) :
    ∃ os, os.length + acts.countP isEdge = acts.length ∧
      run acts.length s = .next
        { s with host := rest, observed := s.observed ++ os, block := b.afterEdges i (k + acts.countP isEdge) } := by
  induction acts generalizing s k with
  | nil =>
    obtain rfl : s.host = rest := hh
    exact ⟨[], rfl, by simp [← hs]⟩
  | cons act acts ih =>
    obtain ⟨hact, hacts⟩ := List.forall_mem_cons.mp hq
    have hh : s.host = act :: (acts ++ rest) := hh
    cases he : isEdge act with
    | false =>
      rw [List.countP_cons_of_neg (by simp [he])] at hk ⊢
      obtain ⟨o, ho⟩ := step_quiet_read hact he hh
      obtain ⟨os, hlen, hrun⟩ := ih (s := State.observe o { s with host := acts ++ rest }) hacts rfl hs hk
      refine ⟨o :: os, by simp only [List.length_cons]; omega, ?_⟩
      rw [List.length_cons, run_succ ho, hrun]
      simp
    | true =>
      rw [List.countP_cons_of_pos he] at hk ⊢
      obtain ⟨p, hr, hp⟩ := step_quiet_edge hact he hh
      rw [clock_afterEdges (s := { s with host := acts ++ rest }) hr hb hi (by omega) hs] at hp
      obtain ⟨os, hlen, hrun⟩ := ih (s := { s with host := acts ++ rest, block := b.afterEdges i (k + 1) }) hacts rfl rfl
        (by omega)
      refine ⟨os, by simp only [List.length_cons]; omega, ?_⟩
      rw [List.length_cons, run_succ hp, hrun, Nat.add_right_comm, Nat.add_assoc]

end InFlight

/-! ### From the accepting edge on -/

theorem status_inFlight {b : Block} (hb : b.busy = true) (hv : b.valid = false) (he : b.err = 0#2) (hz : b.zero = false) :
    b.status = 0b00001#5 := by
  rw [Block.status, hb, hv, he, hz]
  decide

section Transaction
variable {s : State} {p : Ports} {rest : List HostAction}
  (hlat : 1 ≤ s.lat) (hb : s.block.busy = false) (hr : p.rst = false) (hv : p.inValid = true)
include hlat hb hr hv

/-- An acceptance and quiet actions with at most `LAT` edges. -/
theorem run_accept_quiet {acts : List HostAction} (hq : ∀ x ∈ acts, Quiet x) (hc : acts.countP isEdge ≤ s.lat)
    (hh : s.host = .edge p :: (acts ++ rest)) :
    ∃ os, os.length + acts.countP isEdge = acts.length ∧
      run (acts.length + 1) s = .next
        { s with host := rest, observed := s.observed ++ os
                 block := (s.block.accept s.lat p).afterEdges (decodeFrame p.frame) (acts.countP isEdge) } := by
  have haccept : step s = .next { s with host := acts ++ rest, block := s.block.accept s.lat p } := by
    rw [step_cons hh]
    exact clock_accept (s := { s with host := acts ++ rest }) hr hb hv
  have hquiet := run_quiet (s := { s with host := acts ++ rest, block := s.block.accept s.lat p }) (rest := rest) (k := 0)
    (accept_busy s.block s.lat p) (accept_command s.block s.lat p) hq rfl afterEdges_zero.symm
    (by rw [accept_cnt]; omega)
  rw [run_succ haccept]
  simpa only [Nat.zero_add] using hquiet

/-- An acceptance and at most `LAT` edges, with nothing read. -/
theorem run_accept_edges {ps : List Ports} (hps : ∀ q ∈ ps, q.rst = false) (hc : ps.length ≤ s.lat)
    (hh : s.host = .edge p :: (ps.map HostAction.edge ++ rest)) :
    run (ps.length + 1) s = .next
      { s with host := rest, block := (s.block.accept s.lat p).afterEdges (decodeFrame p.frame) ps.length } := by
  have hcount : (ps.map HostAction.edge).countP isEdge = ps.length := by
    rw [List.countP_map]
    exact List.countP_eq_length.mpr fun _ _ => rfl
  obtain ⟨os, hlen, hrun⟩ := run_accept_quiet hlat hb hr hv (List.forall_mem_map.mpr hps) (by omega) hh
  rw [hcount, List.length_map] at hlen hrun
  obtain rfl : os = [] := List.eq_nil_of_length_eq_zero (by omega)
  rwa [List.append_nil] at hrun

/-- An acceptance and quiet actions with `LAT` edges end in the response of the accepted command. -/
theorem run_transaction {acts : List HostAction} (hq : ∀ x ∈ acts, Quiet x) (hc : acts.countP isEdge = s.lat)
    (hh : s.host = .edge p :: acts) :
    ∃ t b, run (acts.length + 1) s = .next t ∧ t.block = Block.complete (execute (decodeFrame p.frame)) b := by
  obtain ⟨os, -, hrun⟩ := run_accept_quiet (rest := []) hlat hb hr hv hq hc.le (by rwa [List.append_nil])
  have hlast : (s.block.accept s.lat p).cnt < acts.countP isEdge := by
    rw [accept_cnt]
    omega
  rw [afterEdges_of_lt hlast] at hrun
  exact ⟨_, _, hrun, rfl⟩

end Transaction

/-- Settles O50: before the completing edge the accepted block with a lower `CNT`, and at it the response. -/
theorem commandsCompleteExactlyLatEdgesLater : Obligations.CommandsCompleteExactlyLatEdgesLater := by
  intro s p ps rest hlat hb hr hv hlen hps hh
  constructor
  · intro k hk
    have htake : (ps.take k).length = k := List.length_take_of_le (by omega)
    have hrun := run_accept_edges (ps := ps.take k) (rest := (ps.drop k).map HostAction.edge ++ rest) hlat hb hr hv
      (fun q hq => hps q (List.mem_of_mem_take hq)) (by omega)
      (by rw [← List.append_assoc, ← List.map_append, List.take_append_drop, hh])
    rw [htake, afterEdges_of_le (by rw [accept_cnt]; omega)] at hrun
    exact ⟨_, hrun, status_inFlight rfl rfl rfl rfl, rfl, rfl, rfl⟩
  · have hrun := run_accept_edges hlat hb hr hv hps hlen.le hh
    rw [hlen, afterEdges_of_lt (by rw [accept_cnt]; omega)] at hrun
    exact ⟨_, hrun, rfl, rfl, complete_reply .., rfl, rfl, rfl, rfl⟩

/-- Settles O51: equal pins carry equal frames, and a completion writes the response of its command alone. -/
theorem responseDependsOnlyOnTheCommand : Obligations.ResponseDependsOnlyOnTheCommand := by
  intro s s' p p' acts acts' hlat hlat' hidle hidle' hr hr' hv hv' hop ha hb hq hq' hc hc' hh hh'
  obtain ⟨t, c, hrun, ht⟩ := run_transaction hlat hidle hr hv hq hc hh
  obtain ⟨t', c', hrun', ht'⟩ := run_transaction hlat' hidle' hr' hv' hq' hc' hh'
  have hframe : p'.frame = p.frame := by rw [Ports.frame, Ports.frame, hop, ha, hb]
  rw [hframe] at ht'
  refine ⟨t, t', hrun, hrun', ?_⟩
  rw [ht, ht']
  exact ⟨rfl, rfl, rfl, rfl, rfl, rfl⟩

end Sys2Proof.Machine
end

section
/-! A completed response has a result or an error, never a part of one (R103), and of the
instances of a system only the one that steps changes (R102). -/

namespace Sys2Proof.Machine

/-! ### Responses -/

theorem toNat_word_lt_fieldPrime {n : Nat} (hn : n < Config.fieldPrime) : (Claims.word n).toNat < Config.fieldPrime :=
  (toNat_ofNat_of_lt_fieldPrime hn).trans_lt hn

/-- Settles O17: a response is a success below the prime or a failure with a non-zero mask. -/
theorem responsesAreNeverPartial : Obligations.ResponsesAreNeverPartial := by
  intro i s
  refine ⟨_, exec_eq i s, ?_⟩
  rw [State.complete_block, complete_err, complete_result]
  obtain ⟨n, hn, hi⟩ | ⟨m, hm, hi⟩ := execute_cases i <;> rw [hi]
  · exact .inl ⟨success_err n, Claims.word n, success_result n, toNat_word_lt_fieldPrime hn⟩
  · exact .inr ⟨hm, malformedInput_result m⟩

/-! ### Instances -/

/-- All that a step of a system can do at a block it has: put in the block's place what a step of it alone gives. -/
theorem stepInstance_next {sys sys' : List State} {k : Nat} {s : State} (hs : sys[k]? = some s)
    (h : stepInstance k sys = .next sys') : ∃ t, step s = .next t ∧ sys' = sys.set k t := by
  rw [stepInstance, hs] at h
  cases hstep : step s with
  | next t =>
    simp only [hstep] at h
    exact ⟨t, rfl, (Host.Outcome.next.inj h).symm⟩
  | fault r => simp [hstep] at h
  | refused r => simp [hstep] at h

/-- Settles O54: the list of states is written at `k` alone. -/
theorem instancesDoNotAffectEachOther : Obligations.InstancesDoNotAffectEachOther := by
  intro sys sys' k s hs h
  obtain ⟨t, hstep, rfl⟩ := stepInstance_next hs h
  obtain ⟨hk, -⟩ := List.getElem?_eq_some_iff.mp hs
  exact ⟨List.length_set, fun j hj => List.getElem?_set_ne hj.symm, t, hstep, List.getElem?_set_self hk⟩

end Sys2Proof.Machine
end

section
/-! The host's next action run from what is known of the block: a read of a value that is there, and a WAIT. -/

namespace Sys2Proof.Machine

variable {s : State} {act : HostAction} {rest : List HostAction}

theorem step_read {o : Observation} (hact : act.IsRead) (hh : s.host = act :: rest)
    (ho : s.block.valueRead act = some o) : step s = .next (State.observe o { s with host := rest }) := by
  rw [step_cons hh]
  obtain rfl | rfl | rfl | ⟨rst, rfl⟩ := hact
  · obtain ⟨r, hr, rfl⟩ := Option.map_eq_some_iff.mp ho
    simp only [perform, readReply, hr]
  · obtain rfl := Option.some.inj ho
    rfl
  · obtain ⟨v, hv, rfl⟩ := Option.map_eq_some_iff.mp ho
    simp only [perform, readResult, hv]
  · obtain rfl := Option.some.inj ho
    rfl

theorem step_wait_valid (hh : s.host = .wait :: rest) (hv : s.block.valid = true) :
    step s = .next { s with host := rest } := by
  rw [step_cons hh, perform, if_pos hv]

theorem step_wait_not_valid (hh : s.host = .wait :: rest) (hv : s.block.valid = false) : step s = clock Ports.idle s := by
  rw [step_cons hh, perform, if_neg (by simp [hv]), ← hh]

/-- One step more at the end of a run. -/
theorem run_snoc {n : Nat} {t u : State} (h : run n s = .next t) (hu : step t = .next u) : run (n + 1) s = .next u :=
  (run_add 1 h).trans (run_succ hu)

/-- What every step keeps holds in every state that a run reaches. -/
theorem run_keeps {P : State → Prop} (hstep : ∀ t u, P t → step t = .next u → P u) {n : Nat} {t : State} (hs : P s)
    (h : run n s = .next t) : P t := by
  induction n generalizing s with
  | zero =>
    cases Host.Outcome.next.inj h
    exact hs
  | succ n ih =>
    rw [run_succ_eq] at h
    split at h
    next u hu => exact ih (hstep s u hs hu) h
    next => cases h
    next => cases h

end Sys2Proof.Machine
end

section
/-! The reset edge (R105 to R108): it comes before everything else of its edge, and leaves nothing of a command in flight. -/

namespace Sys2Proof.Machine

/-- Settles O28: the reset state does not depend on the registers, and `in_ready` needs `rst = 0`. -/
theorem resetEdgeWritesTheResetState : Obligations.ResetEdgeWritesTheResetState := by
  intro p q s hp hq
  exact ⟨_, clock_reset hp, clock_reset hq, rfl, by simp [Block.inReady, hp]⟩

/-- Edges with nothing presented leave an idle block as it is, however many they are (R50, R69). -/
theorem run_silent_edges {ps : List Ports} {s : State} {rest : List HostAction} (hb : s.block.busy = false)
    (hps : ∀ q ∈ ps, q.rst = false ∧ q.inValid = false) (hh : s.host = ps.map HostAction.edge ++ rest) :
    run ps.length s = .next { s with host := rest } := by
  induction ps generalizing s with
  | nil =>
    obtain rfl : s.host = rest := hh
    rfl
  | cons q qs ih =>
    obtain ⟨⟨hr, hv⟩, hqs⟩ := List.forall_mem_cons.mp hps
    have hstep : step s = .next { s with host := qs.map HostAction.edge ++ rest } := by
      rw [step_cons hh]
      exact clock_idle hr hb hv
    exact (run_succ hstep).trans (ih (s := { s with host := qs.map HostAction.edge ++ rest }) hb hqs rfl)

/-- Settles O29: the edge with `rst = 1` gives the reset state, which the edges after it leave alone. -/
theorem resetAbortsTheCommandInFlight : Obligations.ResetAbortsTheCommandInFlight := by
  intro p ps s hr hps hh
  have hreset : step s = .next { s with host := ps.map HostAction.edge, block := Block.resetState } := by
    rw [step_cons hh]
    exact clock_reset hr
  have hsilent := run_silent_edges (s := { s with host := ps.map HostAction.edge, block := Block.resetState }) (rest := [])
    resetState_busy hps (List.append_nil _).symm
  exact ⟨_, (run_succ hreset).trans hsilent, rfl, rfl, rfl, rfl, rfl, rfl⟩

end Sys2Proof.Machine
end

section
/-! The response of an idle block: how long it stays (R113), and where `out_res` has a value to read (R112). -/

namespace Sys2Proof.Machine

/-- Settles O48: with `BUSY = 0` the writes a step can make are those of a reset edge and of an acceptance. -/
theorem responseStaysUntilAcceptanceOrReset : Obligations.ResponseStaysUntilAcceptanceOrReset := by
  intro s t h hb hne
  obtain ht | ht | ⟨-, p, ht⟩ | ⟨hbusy, -⟩ | ⟨hbusy, -⟩ := step_block_cases h
  · exact absurd ht hne
  · exact .inl ht
  · exact .inr (by simp [ht])
  · simp [hb] at hbusy
  · simp [hb] at hbusy

/-- Settles O37: under the invariant `RESULT` has a value exactly while `VALID = 1` and `ERR = 00`. -/
theorem readingAResultTooEarlyIsAHostError : Obligations.ReadingAResultTooEarlyIsAHostError := by
  intro s rest hs hh
  obtain ⟨hiff, hbound, -⟩ := invariantBoundsTheRegisters s hs
  constructor
  · intro hok
    obtain ⟨v, hv⟩ := Option.isSome_iff_exists.mp (hiff.mpr hok)
    exact ⟨v, (hbound v hv).1, step_read (by simp [HostAction.IsRead]) hh (by simp [Block.valueRead, hv])⟩
  · intro hnot
    have hduty : s.hostKeepsDuty = s.block.result.isSome := by simp only [State.hostKeepsDuty, hh]
    exact step_fault_of_not_duty (hduty.trans (Bool.eq_false_iff.mpr (mt hiff.mp hnot)))

end Sys2Proof.Machine
end

section
/-! The end of a run (R101, R120): what stays as it is once no command follows, and that a run which presents no command has
ended. -/

namespace Sys2Proof.Machine

/-! ### After the end -/

/-- The state `t` follows the ended state `s`: all that can have changed is that the host has gone on, has read, and has reset
the block. -/
structure State.FollowsEnd (s t : State) : Prop where
  ended : t.ended = true
  lat : t.lat = s.lat
  host : t.host <:+ s.host
  observed : s.observed <+: t.observed
  block : t.block = s.block ∨ (t.block = Block.resetState ∧ ∃ p, HostAction.edge p ∈ s.host ∧ p.rst = true)

theorem State.FollowsEnd.refl {s : State} (h : s.ended = true) : s.FollowsEnd s where
  ended := h
  lat := rfl
  host := List.suffix_rfl
  observed := List.prefix_rfl
  block := .inl rfl

theorem State.FollowsEnd.step {s t u : State} (h : s.FollowsEnd t) (hu : step t = .next u) : s.FollowsEnd u := by
  obtain ⟨hended, hblock⟩ := step_of_ended h.ended hu
  obtain ⟨hlat, hhost, os, hobs, -⟩ := step_frame hu
  refine ⟨hended, hlat.trans h.lat, ?_, hobs ▸ h.observed.trans (List.prefix_append _ _), ?_⟩
  · obtain hhost | hhost := hhost <;> rw [hhost]
    · exact h.host
    · exact (List.tail_suffix _).trans h.host
  · obtain hblock | ⟨hblock, p, hp, hr⟩ := hblock
    · exact hblock ▸ h.block
    · exact .inr ⟨hblock, p, h.host.subset hp, hr⟩

theorem step_of_idle {s : State} (hh : s.host = []) (hb : s.block.busy = false) : step s = .next s :=
  (step_nil hh).trans (clock_idle rfl hb rfl)

/-- Settles O49: a state that follows the end still follows it after one more step. -/
theorem endedRunsStayEnded : Obligations.EndedRunsStayEnded := by
  intro s hs
  obtain ⟨hb, -⟩ := ended_iff.mp hs
  refine ⟨fun hh => ⟨step_of_idle hh hb, run_of_idle hh hb⟩, fun n t h => ?_⟩
  obtain ⟨hended, hlat, -, ⟨os, hos⟩, hblock⟩ :=
    run_keeps (fun _ _ => State.FollowsEnd.step) (State.FollowsEnd.refl hs) h
  refine ⟨hended, (ended_iff.mp hended).1, hlat, ⟨os, hos.symm⟩, hblock.imp_right And.left, fun hnoReset => ?_⟩
  obtain hblock | ⟨-, p, hp, hr⟩ := hblock
  · exact hblock
  · simp [hnoReset p hp] at hr

/-! ### A run that presents nothing -/

theorem isRead_or (act : HostAction) :
    (∃ p, act = .edge p) ∨ (∃ i, act = .issue i) ∨ act = .wait ∨ act.IsRead := by
  cases act <;> simp [HostAction.IsRead]

/-- A host whose next action is a read goes on from it exactly where there is a value to read. -/
theorem noCommandFollows_isRead {act : HostAction} (hact : act.IsRead) (b : Block) (rest : List HostAction) :
    b.noCommandFollows (act :: rest) = if (b.valueRead act).isSome then b.noCommandFollows rest else true := by
  obtain rfl | rfl | rfl | ⟨rst, rfl⟩ := hact
  · simp [Block.valueRead]
  · rfl
  · simp [Block.valueRead]
  · rfl

/-- An idle block whose host presents no command at its next action: either no further command can come, or a step takes
that action and the actions after it are judged as before. -/
theorem step_of_not_presents {s : State} (hb : s.block.busy = false) (hp : s.presents = false) :
    s.block.noCommandFollows s.host = true ∨
    ∃ t, step s = .next t ∧ t.block.busy = false ∧ t.host = s.host.tail ∧
      s.block.noCommandFollows s.host = t.block.noCommandFollows t.host := by
  cases hh : s.host with
  | nil => exact .inl rfl
  | cons act rest =>
    obtain ⟨p, rfl⟩ | ⟨i, rfl⟩ | rfl | hact := isRead_or act
    · have hv : p.inValid = false := by simpa [State.presents, hh] using hp
      have hstep := (step_cons hh).trans (clock_silent (s := { s with host := rest }) hb hv)
      exact .inr ⟨_, hstep, by cases p.rst <;> simp [hb], rfl, by simp [hv]⟩
    · simp [State.presents, hh] at hp
    · cases hv : s.block.valid with
      | false => exact .inl (by simp [hv])
      | true => exact .inr ⟨_, step_wait_valid hh hv, hb, rfl, by simp [hv]⟩
    · rw [noCommandFollows_isRead hact]
      cases ho : s.block.valueRead act with
      | none => exact .inl rfl
      | some o => exact .inr ⟨_, step_read hact hh ho, hb, rfl, rfl⟩

/-- A host that is never seen to present a command has none to come. -/
theorem noCommandFollows_of_run {s : State} (hb : s.block.busy = false)
    (hsilent : ∀ n t, run n s = .next t → t.presents = false) : s.block.noCommandFollows s.host = true := by
  induction hh : s.host generalizing s with
  | nil => rfl
  | cons act rest ih =>
    rw [← hh]
    obtain hdone | ⟨t, hstep, hbt, htail, heq⟩ := step_of_not_presents hb (hsilent 0 s rfl)
    · exact hdone
    · have hrest : t.host = rest := htail.trans (congrArg List.tail hh)
      rw [heq, hrest]
      exact ih hbt (fun n u h => hsilent (n + 1) u ((run_succ hstep).trans h)) hrest

/-- Settles O55: an ended run stays ended and so presents nothing, and one that presents nothing has no command to come. What
counts as presented after a WAIT that never ends or a host error is the model's reading (log entry 20). -/
theorem runsEndExactlyWhenNoCommandFollows : Obligations.RunsEndExactlyWhenNoCommandFollows := by
  refine fun s => ⟨⟨fun hs => ?_, fun ⟨hb, hsilent⟩ => ?_⟩, rfl⟩
  · exact ⟨(ended_iff.mp hs).1, fun n t h => presents_of_ended (run_of_ended hs h)⟩
  · exact ended_iff.mpr ⟨hb, noCommandFollows_of_run hb hsilent⟩

end Sys2Proof.Machine
end

section
/-! Hosts that go on after an acceptance: one that keeps `in_valid = 1` (R115), and one that issues, waits and reads (R116). -/

namespace Sys2Proof.Machine

open Claims

theorem step_edge_accept {s : State} {p : Ports} {rest : List HostAction} (hh : s.host = .edge p :: rest)
    (hb : s.block.busy = false) (hr : p.rst = false) (hv : p.inValid = true) :
    step s = .next { s with host := rest, block := s.block.accept s.lat p } := by
  rw [step_cons hh]
  exact clock_accept (s := { s with host := rest }) hr hb hv

/-- Settles O52: the `LAT` edges after the acceptance complete its command, and the edge after them finds the block idle. -/
theorem heldValidIssuesASecondCommand : Obligations.HeldValidIssuesASecondCommand := by
  intro s p q ps rest hlat hb hr hv hlen hps hr' hv' hh
  have hrun := run_accept_edges hlat hb hr hv (fun x hx => (hps x hx).1) hlen.le hh
  rw [hlen, afterEdges_of_lt (by rw [accept_cnt]; omega)] at hrun
  exact ⟨_, run_snoc hrun (step_edge_accept rfl rfl hr' hv'), rfl, rfl, rfl, rfl, rfl, rfl, rfl, rfl⟩

/-! ### A host that waits on the signals -/

/-- An action that passes edges without reset while a command is in flight, and stays the host's next one (log entry 14). -/
def HostAction.Waits : HostAction → Prop
  | .issue _ => True
  | .wait => True
  | _ => False

section Waits
variable {s : State} {act : HostAction} {rest : List HostAction} {i j : Instr}

theorem step_waits (hact : act.Waits) (hh : s.host = act :: rest) (hb : s.block.busy = true)
    (hv : s.block.valid = false) : step s = clock Ports.idle s := by
  cases act with
  | issue i => exact (step_issue_busy hh hb).trans (clock_busy_eq rfl rfl hb)
  | wait => exact step_wait_not_valid hh hv
  | _ => cases hact

/-- While the host waits, each step is one more edge for the command in flight, up to and including the completing one. -/
theorem run_waits (hact : act.Waits) (hh : s.host = act :: rest) (hb : s.block.busy = true) (hv : s.block.valid = false)
    (hi : s.block.command = some j) {k : Nat} (hk : k ≤ s.block.cnt + 1) :
    run k s = .next { s with block := s.block.afterEdges j k } := by
  induction k with
  | zero => rw [afterEdges_zero, run_zero]
  | succ k ih =>
    have hle : k ≤ s.block.cnt := Nat.le_of_succ_le_succ hk
    have hblock := afterEdges_of_le (i := j) hle
    have hedge : step { s with block := s.block.afterEdges j k } = clock Ports.idle { s with block := s.block.afterEdges j k } :=
      step_waits hact hh (hblock ▸ hb) (hblock ▸ hv)
    exact run_snoc (ih (by omega)) (hedge.trans (clock_afterEdges rfl hb hi hle rfl))

theorem run_waits_complete (hact : act.Waits) (hh : s.host = act :: rest) (hb : s.block.busy = true)
    (hv : s.block.valid = false) (hi : s.block.command = some j) :
    run (s.block.cnt + 1) s = .next { s with block := ({ s.block with cnt := 0 } : Block).complete (execute j) } := by
  rw [run_waits hact hh hb hv hi le_rfl, afterEdges_of_lt (Nat.lt_succ_self _)]

/-- Within `LAT` steps a waiting host finds the block idle. -/
theorem run_waits_idle (hs : s.Inv) (hact : act.Waits) (hh : s.host = act :: rest) :
    ∃ n b, n ≤ s.lat ∧ b.busy = false ∧ run n s = .next { s with block := b } := by
  cases hb : s.block.busy with
  | false => exact ⟨0, s.block, Nat.zero_le _, hb, rfl⟩
  | true =>
    have hv : s.block.valid = false := Bool.eq_false_iff.mpr fun hv => hs.block.exclusive ⟨hb, hv⟩
    obtain ⟨j, hj⟩ := Option.isSome_iff_exists.mp (hs.block.inFlight hb)
    exact ⟨s.block.cnt + 1, _, hs.block.counter.1, rfl, run_waits_complete hact hh hb hv hj⟩

/-- ISSUE, WAIT and READ at an idle block: the accepting edge, the `LAT` edges to the response, the step that sees `VALID = 1`,
and the read. -/
theorem run_issue_wait_read (hlat : 1 ≤ s.lat) (hb : s.block.busy = false)
    (hh : s.host = .issue i :: .wait :: .read :: rest) :
    ∃ b : Block, run (s.lat + 3) s = .next
        { s with host := rest, observed := s.observed ++ [.reply (expectedReply i)], block := b.complete (execute i) } := by
  have haccept := step_issue_idle hh hb
  have hcommand : (s.block.accept s.lat (Ports.present i)).command = some i := by simp
  have hcomplete := run_waits_complete (act := .wait) (rest := .read :: rest)
    (s := { s with host := .wait :: .read :: rest, block := s.block.accept s.lat (Ports.present i) }) trivial rfl rfl rfl hcommand
  have hcnt : (s.block.accept s.lat (Ports.present i)).cnt + 1 = s.lat := Nat.sub_add_cancel hlat
  rw [hcnt] at hcomplete
  have hwait := run_snoc ((run_succ haccept).trans hcomplete) (step_wait_valid rfl rfl)
  have hread := run_snoc hwait (step_read (.inl rfl) rfl (congrArg (Option.map Observation.reply) (complete_reply _ i)))
  exact ⟨_, hread⟩

end Waits

/-- Settles O53: the host waits until the block is idle, then its own command is accepted, completed and read. The bound rests on
what ISSUE and WAIT drive and on what counts as a step (log entries 14 and 18). -/
theorem waitingOnTheSignalsGivesTheResponse : Obligations.WaitingOnTheSignalsGivesTheResponse := by
  intro s i rest hs hh
  obtain ⟨n, b, hn, hb, hidle⟩ := run_waits_idle hs (act := .issue i) trivial hh
  obtain ⟨c, hresponse⟩ := run_issue_wait_read (s := { s with block := b }) hs.latency hb hh
  exact ⟨n + (s.lat + 3), _, by omega, (run_add _ hidle).trans hresponse, rfl, rfl, rfl, rfl, rfl⟩

end Sys2Proof.Machine
end

section
/-! The frames the spec writes out (95_test_vectors.md section 5). -/

namespace Sys2Proof

/-- A number that encodes a command is read as that command, since encoding it loses nothing. -/
theorem decodeTableWord_of_encode {n : Nat} {i : Instr} (h : (encode i).toNat = n) : decodeTableWord 520 n = some i := by
  obtain ⟨-, -, hnumber⟩ := decodeAndEncodeAreInverse
  rw [← h, hnumber]

/-- Settles O6: each frame written out is the encoding of its command. -/
theorem sampleFramesDecode : Obligations.SampleFramesDecode :=
  ⟨decodeTableWord_of_encode (by decide), decodeTableWord_of_encode (by decide), decodeTableWord_of_encode (by decide),
    decodeTableWord_of_encode (by decide)⟩

end Sys2Proof
end
